-- ==== Sys2Proof/Word.lean ====
section
/-! DEFINITION. The two widths of the block: 8-bit data and 16-bit addresses (spec/00_scope.md rule R5). -/

namespace Sys2Proof

/-- An unsigned 8-bit value, the spec's `u8`: every register but `PC`, and every memory cell (rule R5). -/
abbrev Byte := BitVec 8

/-- An unsigned 16-bit value, the spec's `u16`: `PC` and every address (rule R5).
Addition on it is modulo 65,536 (rule R45). -/
abbrev Word := BitVec 16

end Sys2Proof
end

