-- ==== Sys2Proof/Config.lean ====
section
/-! DEFINITION. What is fixed for the machine: the constants of spec/00_scope.md rule R5, and the parameters of rule R6. -/

namespace Sys2Proof.Config

/-- The identity string of the block (rule R1, decision D29). -/
def identity : String := "6502_cpu_core (jaredaivory/nes_emulator), 4-opcode subset"

/-- The number of bytes of the Address Space (rules R5, R40). -/
def addressSpaceSize : Nat := 65536

/-- The address of the low byte of the reset vector; the high byte is at the next address (rules R5, R51). -/
def resetVector : Word := 0xFFFC#16

/-- The base of the stack page, an invariant of `SP` only (rules R5, R24, R52). -/
def stackPage : Word := 0x0100#16

/-- The position of the Negative flag in `P` (rules R5, R27). -/
def negativeBit : Nat := 7

/-- The position of the Zero flag in `P` (rules R5, R28). -/
def zeroBit : Nat := 1

/-- What an address that memory does not list reads as: the spec's default for `MEM_INIT`
(rule R6, decision D8). It narrows nothing: `Memory.ofFn` lists the contents of any other `MEM_INIT`
(log entry 2). -/
def unlistedByte : Byte := 0x00#8

/-- `PROGRAM_ORIGIN`, where `load_and_run` places its image. The spec leaves it OPEN (rule R6, decision D9),
so it has no body here and nothing can be proved of its value (log entry 3). -/
opaque programOrigin : Word

end Sys2Proof.Config
end

