-- ==== Sys2Proof/Syntax.lean ====
section
/-! DEFINITION. The instructions, the addressing modes and the program image, as data (spec/30_encoding.md, spec/40_addressing_modes.md). -/

namespace Sys2Proof

/-- The addressing modes, a closed set of two (rule R85). -/
inductive Mode where
  /-- No operand, 0 bytes consumed (rule R82). -/
  | implied
  /-- The operand is the byte after the opcode, 1 byte consumed (rule R81). -/
  | immediate
deriving DecidableEq, Repr

/-- The instruction a row of the opcode table selects, before its operand is known (rule R67). -/
inductive Op where
  | brk
  | lda
  | tax
  | inx
deriving DecidableEq, Repr

/-- One row of the opcode table: the whole opcode byte selects the instruction (rules R66, R67). -/
structure OpcodeRow where
  opcode : Byte
  op     : Op
deriving DecidableEq, Repr

/-- The instructions, one constructor for each row of spec/opcode_table.json. -/
inductive Instr where
  /-- Break/Halt, 0x00 (rule R93). -/
  | brk
  /-- Load-Accumulator, Immediate, 0xA9, with its operand byte (rule R90). -/
  | lda (imm : Byte)
  /-- Transfer-Accumulator-to-Index-X, 0xAA (rule R91). -/
  | tax
  /-- Increment-Index-X, 0xE8 (rule R92). -/
  | inx
deriving DecidableEq, Repr

/-- The Program Image the host copies into memory: its bytes and its load origin (rule R134, glossary of 00_scope.md). -/
structure ProgramImage where
  bytes  : List Byte
  origin : Word
deriving DecidableEq, Repr

end Sys2Proof
end

