-- ==== Sys2Proof/Decode.lean ====
section
/-! DEFINITION. The opcode table, decoding (total on any bytes, rejecting by name) and encoding (spec/30_encoding.md). -/

namespace Sys2Proof

/-- The number of operand bytes a mode consumes (rules R81, R82). -/
def Mode.operandWidth : Mode → Nat
  | .implied   => 0
  | .immediate => 1

/-- The addressing mode of a table row (rule R67). -/
def Op.mode : Op → Mode
  | .brk => .implied
  | .lda => .immediate
  | .tax => .implied
  | .inx => .implied

/-- The table row an instruction belongs to. -/
def Instr.op : Instr → Op
  | .brk   => .brk
  | .lda _ => .lda
  | .tax   => .tax
  | .inx   => .inx

/-- The operand bytes of an instruction, in memory order (rules R66, R70). -/
def Instr.operandBytes : Instr → List Byte
  | .brk     => []
  | .lda imm => [imm]
  | .tax     => []
  | .inx     => []

/-- The opcode table, a constant of four rows (rule R67). -/
def opcodeTable : List OpcodeRow :=
  [⟨0x00#8, .brk⟩, ⟨0xA9#8, .lda⟩, ⟨0xAA#8, .tax⟩, ⟨0xE8#8, .inx⟩]

/-- `Decode`: look the opcode byte up in the table (rule R68). -/
def decodeOpcode (b : Byte) : Option Op :=
  (opcodeTable.find? (fun row => row.opcode == b)).map OpcodeRow.op

/-- The length of an instruction in bytes: the opcode byte and the operand bytes of its mode (rule R71). -/
def Instr.length (i : Instr) : Nat := 1 + i.op.mode.operandWidth

/-- Why a sequence of bytes is not the start of an instruction. -/
inductive DecodeError where
  /-- There is no byte. -/
  | noByte
  /-- The opcode byte is in no row of the table (rule R72). -/
  | unimplementedOpcode (opcode : Byte)
  /-- The table row has an operand byte and the sequence ends before it (rule R71). -/
  | missingOperand (op : Op)
deriving DecidableEq, Repr

/-- The instruction of a table row, with its operand taken from the bytes that follow the opcode (rules R70, R71). -/
def decodeOperand : Op → List Byte → Except DecodeError (Instr × List Byte)
  | .brk, rest        => .ok (.brk, rest)
  | .lda, imm :: rest => .ok (.lda imm, rest)
  | .lda, []          => .error (.missingOperand .lda)
  | .tax, rest        => .ok (.tax, rest)
  | .inx, rest        => .ok (.inx, rest)

/-- The instruction at the front of a sequence of bytes, with the bytes after it (rules R68, R71, R77). -/
def decode : List Byte → Except DecodeError (Instr × List Byte)
  | []        => .error .noByte
  | b :: rest =>
    match decodeOpcode b with
    | none    => .error (.unimplementedOpcode b)
    | some op => decodeOperand op rest

/-- The opcode byte of a table row, from the column of rule R67. -/
def Op.opcode : Op → Byte
  | .brk => 0b00000000#8
  | .lda => 0b10101001#8
  | .tax => 0b10101010#8
  | .inx => 0b11101000#8

/-- The bytes of an instruction, the opcode at the lowest address (rules R65, R66). -/
def encode (i : Instr) : List Byte := i.op.opcode :: i.operandBytes

/-- The bytes of a table word of `nbits` bits, first byte lowest, with zeros above up to the longest instruction. -/
def tableWordBytes (nbits w : Nat) : List Byte :=
  [BitVec.ofNat 8 (w % 2 ^ nbits), BitVec.ofNat 8 (w % 2 ^ nbits / 256)]

/-- The instruction the decoder reads from a word numbered as spec/opcode_table.json numbers it. -/
def decodeTableWord (nbits w : Nat) : Option Instr :=
  match decode (tableWordBytes nbits w) with
  | .ok (i, _) => some i
  | .error _   => none

/-- One hexadecimal digit, as assembler text writes it (rule R75). -/
def hexDigit (n : Nat) : Char :=
  if n < 10 then Char.ofNat (48 + n) else Char.ofNat (55 + n)

/-- The assembler text of an instruction (rule R75, decision D17): for the reader, only the bytes are normative. -/
def Instr.assembly : Instr → String
  | .brk     => "BRK"
  | .lda imm => String.ofList (['L', 'D', 'A', ' ', '#', '$', hexDigit (imm.toNat / 16), hexDigit (imm.toNat % 16)])
  | .tax     => "TAX"
  | .inx     => "INX"

end Sys2Proof
end

