-- ==== Sys2Proof/WellFormed.lean ====
section
/-! DEFINITION. What makes an instruction and a program image well formed. -/

namespace Sys2Proof

/-- An instruction carries as many operand bytes as its mode consumes (rules R65, R71).
The types of `Instr` give the operand its 8 bits, so every term meets this. -/
def Instr.wellFormed (i : Instr) : Bool :=
  i.operandBytes.length == i.op.mode.operandWidth

/-- The load bound, `origin + len(image) <= 0x10000` on integers without wrap (rules R115, R135). -/
def ProgramImage.wellFormed (img : ProgramImage) : Bool :=
  decide (img.origin.toNat + img.bytes.length ≤ Config.addressSpaceSize)

end Sys2Proof
end

