-- ==== Sys2Proof/Machine/State.lean ====
section
/-! DEFINITION. The state of the block (spec/10_state.md rule R20), the reasons a step stops, and the state after reset. -/

namespace Sys2Proof.Machine

/-- The state of the Execution Loop (rules R32, R100). -/
inductive RunState where
  | running
  | halted
deriving DecidableEq, Repr

/-- Why the loop is Halted (rule R33). -/
inductive HaltCause where
  /-- `None`: no run has ended since construction or the last `reset()`. -/
  | none
  /-- `Break`: the run ended by a Break/Halt instruction, the normal end. -/
  | breakHalt
  /-- `UnimplementedOpcode`: the run ended at a byte in no row of the opcode table, an error. -/
  | unimplementedOpcode
deriving DecidableEq, Repr

/-- `MEM`, the Address Space (rules R34, R40): the addresses whose byte differs from `Config.unlistedByte`,
with their bytes. `Memory.wf` is its canonical form. -/
abbrev Memory := List Host.Cell

/-- The complete state of the block (rule R20), and nothing else. -/
structure State where
  /-- The accumulator (rule R21). -/
  a           : Byte
  /-- Index-X (rule R22). -/
  x           : Byte
  /-- Index-Y (rule R23). -/
  y           : Byte
  /-- The stack pointer (rule R24). -/
  sp          : Byte
  /-- The program counter (rule R25). -/
  pc          : Word
  /-- The status flags: Negative is bit 7, Zero is bit 1, six unnamed storage bits (rules R26 to R29). -/
  p           : Byte
  /-- The state of the Execution Loop (rule R32). -/
  runState    : RunState
  /-- Why the loop is Halted (rule R33). -/
  haltCause   : HaltCause
  /-- The offending byte, valid when `haltCause` is `unimplementedOpcode` (rule R33). -/
  faultOpcode : Byte
  /-- The address that byte was fetched from, valid when `haltCause` is `unimplementedOpcode` (rule R33). -/
  faultAddr   : Word
  /-- The Address Space (rule R34). -/
  mem         : Memory
deriving DecidableEq, Repr

/-- The reasons `step` stops. -/
inductive Fault where
  /-- Raised by `step` in a Halted state that no fatal condition left: the loop takes no step in Halted
  (rules R100, R105), so this is a stuck state, not an error of the block. Safe: the model stops where
  the block does nothing until the host acts. -/
  | halted
  /-- Raised by `step` in a Halted state that Unimplemented-Opcode left, with the report: such a state is a
  fault, never a normal final state (rule R108, decision D25). Safe: the block takes no step there either. -/
  | unimplementedOpcode (opcode : Byte) (addr : Word)
  /-- The spec's third condition by name (rules R110, R129). Raised by nothing: every address is 16 bits wide,
  so the condition is unreachable (rules R46, R114). Safe: it stops no run. -/
  | outOfBoundsAddress
deriving DecidableEq, Repr

/-- The actions the model gives no transition. -/
inductive Refusal where
  /-- Raised by an arm of `exec` that has no meaning yet; no arm of this model is one. Safe. -/
  | notModelled (mnemonic : String)
  /-- Raised by every host operation while the loop is Running (rule R140, decision D15). Safe as a stop; that the
  host keeps to it is an assumption on the host (log entry 6). -/
  | hostActionDuringRun
  /-- Raised by `run()` when a run has ended and no `reset()` followed (rules R105, R141, decision D11). Safe. -/
  | runWithoutReset
deriving DecidableEq, Repr

/-- The machine right after `reset()` with the default `MEM_INIT` (rules R37, R131; the vector bytes are 0x00, so
`PC` is 0x0000, as vector RS2 of 95_test_vectors.md has it). Memory lists nothing. -/
def State.reset : State where
  a           := 0x00#8
  x           := 0x00#8
  y           := 0x00#8
  sp          := 0x00#8
  pc          := 0x0000#16
  p           := 0x00#8
  runState    := .halted
  haltCause   := .none
  faultOpcode := 0x00#8
  faultAddr   := 0x0000#16
  mem         := []

end Sys2Proof.Machine
end

