-- ==== Sys2Proof/Machine/Ops.lean ====
section
/-! DEFINITION. The named operations over memory and registers (spec/20_memory.md rules R41 to R45), and the two endings of a
run: `halt Break` and `raise UnimplementedOpcode` (spec/00_scope.md section 6, spec/60_exceptions.md rule R111). -/

namespace Sys2Proof.Machine

/-! ### Memory -/

/-- The canonical form: addresses strictly rising, each inside the Address Space, and no entry that an unlisted
address would read as anyway. Equal memories are then equal data. -/
def Memory.wf (m : Memory) : Bool :=
  decide (m.Pairwise (fun c d => c.1 < d.1)) &&
    m.all (fun c => decide (c.1 < Config.addressSpaceSize) && c.2 != Config.unlistedByte)

/-- The byte listed for an address, if there is one. -/
def Memory.find : Memory → Nat → Option Byte
  | [], _          => none
  | (k, v) :: m, n => if k = n then some v else Memory.find m n

/-- `read8`: the byte stored at an address (rule R41). -/
def Memory.read8 (m : Memory) (addr : Word) : Byte :=
  (Memory.find m addr.toNat).getD Config.unlistedByte

/-- Take every entry for an address out of the list. -/
def Memory.erase (m : Memory) (n : Nat) : Memory := m.filter (fun c => c.1 != n)

/-- Put an entry before the first one with a greater address. -/
def Memory.insert (n : Nat) (v : Byte) : Memory → Memory
  | []     => [(n, v)]
  | c :: m => if n < c.1 then (n, v) :: c :: m else c :: Memory.insert n v m

/-- `write8`: store a byte at an address and change no other byte (rule R42). Storing what an unlisted address
reads as takes the entry out. -/
def Memory.write8 (m : Memory) (addr : Word) (v : Byte) : Memory :=
  if v = Config.unlistedByte then Memory.erase m addr.toNat
  else Memory.insert addr.toNat v (Memory.erase m addr.toNat)

/-- `read16`: low byte at `addr`, high byte at `addr + 1` modulo 65,536 (rules R43, R47). -/
def Memory.read16 (m : Memory) (addr : Word) : Word :=
  m.read8 (addr + 1) ++ m.read8 addr

/-- The low byte of a word, `v[7:0]`. -/
def lowByte (v : Word) : Byte := v.extractLsb' 0 8

/-- The high byte of a word, `v[15:8]`. -/
def highByte (v : Word) : Byte := v.extractLsb' 8 8

/-- `write16`: low byte at `addr`, then high byte at `addr + 1` modulo 65,536 (rule R44). -/
def Memory.write16 (m : Memory) (addr v : Word) : Memory :=
  (m.write8 addr (lowByte v)).write8 (addr + 1) (highByte v)

/-- Store the bytes of an image at rising addresses from `addr` (the loop of rule R134). -/
def Memory.copy : Memory → Word → List Byte → Memory
  | m, _, []            => m
  | m, addr, b :: image => Memory.copy (m.write8 addr b) (addr + 1) image

/-- The memory that holds given bytes at the first `k` addresses, and what unlisted addresses read as above. -/
def Memory.listBelow (f : Word → Byte) (k : Nat) : Memory :=
  (List.range k).filterMap (fun n =>
    if f (BitVec.ofNat 16 n) = Config.unlistedByte then none else some (n, f (BitVec.ofNat 16 n)))

/-- The memory that holds a given byte at each of the 65,536 addresses: how `MEM_INIT` becomes data (rules R6, R36).
Irreducible, so that no proof writes out 65,536 cells by accident. -/
@[irreducible] def Memory.ofFn (f : Word → Byte) : Memory := Memory.listBelow f Config.addressSpaceSize

/-! ### Registers -/

/-- `A <- v`. -/
def State.setA (s : State) (v : Byte) : State := { s with a := v }

/-- `X <- v`. -/
def State.setX (s : State) (v : Byte) : State := { s with x := v }

/-- `PC <- v`. -/
def State.setPC (s : State) (v : Word) : State := { s with pc := v }

/-- `P <- v`. -/
def State.setP (s : State) (v : Byte) : State := { s with p := v }

/-- `run_state <- r`. -/
def State.setRunState (s : State) (r : RunState) : State := { s with runState := r }

/-- Replace the Address Space. -/
def State.setMem (s : State) (m : Memory) : State := { s with mem := m }

/-- The address the stack pointer stands for, `0x0100 + zext_16(SP)` (rule R24). No instruction uses it. -/
def State.stackAddress (s : State) : Word := Config.stackPage + s.sp.setWidth 16

/-- Fetch: read the byte at `PC` and add one to `PC`, modulo 65,536 (rules R25, R45, R102). -/
def State.fetchByte (s : State) : Byte × State := (s.mem.read8 s.pc, s.setPC (s.pc + 1))

/-! ### The endings of a run

No instruction returns from either (rule R121): the only way on is the host's `reset()`, in HostPort.lean. -/

/-- `halt Break` (rules R93, R113): the loop is Halted with cause Break, and nothing else changes. -/
def State.haltBreak (s : State) : State :=
  { s with runState := .halted, haltCause := .breakHalt }

/-- `raise UnimplementedOpcode(b, a0)` (rules R111, R112): the loop is Halted with the byte and the address it was
fetched from in the report. No handler runs, nothing is pushed, no vector is read. -/
def State.raiseUnimplementedOpcode (s : State) (b : Byte) (a0 : Word) : State :=
  { s with runState := .halted, haltCause := .unimplementedOpcode, faultOpcode := b, faultAddr := a0 }

end Sys2Proof.Machine
end

