-- ==== Sys2Proof/Machine/Flags.lean ====
section
/-! DEFINITION. The status flags and the Flag Evaluator `SetZN` (spec/10_state.md rules R26 to R31). -/

namespace Sys2Proof.Machine

/-- Set or clear one bit of a byte and leave the other seven (mask-and-set, rule R30). -/
def setFlag (p : Byte) (bit : Nat) (on : Bool) : Byte :=
  if on then p ||| (1#8 <<< bit) else p &&& ~~~(1#8 <<< bit)

/-- The status flags after `SetZN(v)`: Zero from `v == 0x00`, then Negative from `v[7]` (rule R30). -/
def flagsZN (p v : Byte) : Byte :=
  setFlag (setFlag p Config.zeroBit (v == 0x00#8)) Config.negativeBit (v.getLsbD 7)

/-- `SetZN(v)` (rule R30): writes `P` and touches nothing else. -/
def State.setZN (s : State) (v : Byte) : State := s.setP (flagsZN s.p v)

/-- `P.N`, the Negative flag (rule R27). -/
def State.negative (s : State) : Bool := s.p.getLsbD Config.negativeBit

/-- `P.Z`, the Zero flag (rule R28). -/
def State.zero (s : State) : Bool := s.p.getLsbD Config.zeroBit

end Sys2Proof.Machine
end

