-- ==== Sys2Proof/Machine/Arithmetic.lean ====
section
/-! DEFINITION. Arithmetic instructions (spec/43_increment.md). -/

namespace Sys2Proof.Machine

/-- Increment-Index-X (rule R92): `X <- (X + 1) mod 256; SetZN(X)`. The loop has fetched the opcode. -/
def execInx (s : State) : Host.Outcome State Fault Refusal :=
  let s1 := s.setX (s.x + 1)
  .next (s1.setZN s1.x)

end Sys2Proof.Machine
end

