-- ==== Sys2Proof/Machine/Load.lean ====
section
/-! DEFINITION. Load instructions (spec/41_load_accumulator.md). -/

namespace Sys2Proof.Machine

/-- Load-Accumulator, Immediate (rule R90): `A <- val; SetZN(A)`. The loop has fetched both bytes. -/
def execLda (imm : Byte) (s : State) : Host.Outcome State Fault Refusal :=
  let s1 := s.setA imm
  .next (s1.setZN s1.a)

end Sys2Proof.Machine
end

