-- ==== Sys2Proof/Machine/System.lean ====
section
/-! DEFINITION. System instructions (spec/44_break_halt.md). -/

namespace Sys2Proof.Machine

/-- Break/Halt (rule R93, decision D21): the loop halts with cause Break. Nothing is pushed, no flag is written, no
vector is read, no padding byte is skipped. The loop has fetched the opcode. -/
def execBrk (s : State) : Host.Outcome State Fault Refusal := .next s.haltBreak

end Sys2Proof.Machine
end

