-- ==== Sys2Proof/Machine/Transfer.lean ====
section
/-! DEFINITION. Register transfer instructions (spec/42_register_transfer.md). -/

namespace Sys2Proof.Machine

/-- Transfer-Accumulator-to-Index-X (rule R91): `X <- A; SetZN(X)`. The loop has fetched the opcode. -/
def execTax (s : State) : Host.Outcome State Fault Refusal :=
  let s1 := s.setX s.a
  .next (s1.setZN s1.x)

end Sys2Proof.Machine
end

