-- ==== Sys2Proof/Machine/Dispatch.lean ====
section
/-! DEFINITION. The Instruction Executor: one meaning for each instruction (spec/45_execution_loop.md rule R102, its last case). -/

namespace Sys2Proof.Machine

/-- The effect of an instruction once its bytes are fetched and its operand is resolved (rule R102). -/
def exec (i : Instr) (s : State) : Host.Outcome State Fault Refusal :=
  match i with
  | .brk => Sys2Proof.Machine.execBrk s
  | .lda imm => Sys2Proof.Machine.execLda imm s
  | .tax => Sys2Proof.Machine.execTax s
  | .inx => Sys2Proof.Machine.execInx s

end Sys2Proof.Machine
end

