-- ==== Sys2Proof/Machine/Operands.lean ====
section
/-! DEFINITION. The Addressing-Mode Resolver (spec/40_addressing_modes.md): the two operand forms of the block. -/

namespace Sys2Proof.Machine

/-- What the resolver hands to execution (rules R80, R83): nothing for Implied; for Immediate both the effective
address and the value at it. -/
inductive Operand : Mode → Type where
  | none : Operand .implied
  | at (ea : Word) (val : Byte) : Operand .immediate
deriving Repr

/-- `Resolve(mode)` (rules R80 to R82), at a state whose `PC` holds the address of the byte after the opcode. -/
def resolve : (mode : Mode) → State → Operand mode × State
  | .implied, s   => (.none, s)
  | .immediate, s => (.at s.pc (s.mem.read8 s.pc), s.setPC (s.pc + 1))

/-- The addresses the resolver reads, in order (rule R60), with `PC` after the opcode fetch. -/
def operandAddresses : Mode → Word → List Word
  | .implied, _    => []
  | .immediate, pc => [pc]

/-- The instruction of a table row with its resolved operand; Load-Accumulator uses the operand's value (rule R83). -/
def instrOf : (op : Op) → Operand op.mode → Instr
  | .brk, _         => .brk
  | .lda, .at _ val => .lda val
  | .tax, _         => .tax
  | .inx, _         => .inx

end Sys2Proof.Machine
end

