-- ==== Sys2Proof/Machine/Loop.lean ====
section
/-! DEFINITION. The fetch-decode-execute loop's parts (spec/45_execution_loop.md rule R102), which Step.lean calls. -/

namespace Sys2Proof.Machine

/-- What the opcode fetch, the decode and the resolver give. -/
inductive Fetched where
  /-- An instruction, and the state with `PC` past all its bytes. -/
  | instr (i : Instr) (s : State)
  /-- The decode failed: the byte, the address it was fetched from, and the state with `PC` past it. -/
  | unimplemented (opcode : Byte) (a0 : Word) (s : State)
deriving DecidableEq, Repr

/-- Fetch the byte at `PC`, advance `PC` by one, decode the byte, resolve the addressing mode (rules R77, R80, R102). -/
def fetchInstr (s : State) : Fetched :=
  let a0 := s.pc
  let (opcode, s1) := s.fetchByte
  match decodeOpcode opcode with
  | none => .unimplemented opcode a0 s1
  | some op =>
    let (operand, s2) := resolve op.mode s1
    .instr (instrOf op operand) s2

/-- One step of a Running loop (rule R102): every opcode byte has exactly one arm. -/
def stepRunning (s : State) : Host.Outcome State Fault Refusal :=
  match fetchInstr s with
  | .instr i s2                => exec i s2
  | .unimplemented opcode a0 s1 => .next (s1.raiseUnimplementedOpcode opcode a0)

/-- What `step` reports where the loop is Halted and takes no step (rules R105, R108; decision D25). -/
def haltedFault (s : State) : Fault :=
  match s.haltCause with
  | .none                => .halted
  | .breakHalt           => .halted
  | .unimplementedOpcode => .unimplementedOpcode s.faultOpcode s.faultAddr

/-- The addresses a step reads, in order: the opcode, then the operand (rules R60, R77, R109). A Halted loop reads none. -/
def stepReads (s : State) : List Word :=
  match s.runState with
  | .halted  => []
  | .running =>
    match decodeOpcode (s.mem.read8 s.pc) with
    | none    => [s.pc]
    | some op => s.pc :: operandAddresses op.mode (s.pc + 1)

/-- Store the bytes of a table word at `PC` and set the loop Running, as a host that has loaded a program there and
issued `run()` leaves it (log entry 4). -/
def placeWord (s : State) (nbits w : Nat) : State :=
  (s.setMem (s.mem.copy s.pc (tableWordBytes nbits w))).setRunState .running

end Sys2Proof.Machine
end

