-- ==== Sys2Proof/Machine/Step.lean ====
section
/-! DEFINITION. One step of the machine (spec/45_execution_loop.md rules R100, R102, R105). -/

namespace Sys2Proof.Machine

/-- A step is taken when and only when the loop is Running (rule R102). -/
def step (s : State) : Host.Outcome State Fault Refusal :=
  match s.runState with
  | .running => stepRunning s
  | .halted  => .fault (haltedFault s)

/-- The state with a table word stored where `step` fetches next, and the loop Running (log entry 4). -/
def State.withFetchWord (s : State) (nbits w : Nat) : State := placeWord s nbits w

end Sys2Proof.Machine
end

