-- ==== Sys2Proof/Machine/HostOps.lean ====
section
/-! DEFINITION. Construction and the host operations: `reset`, `load`, `run`, `load_and_run`, inspection
(spec/70_reset_and_hazards.md). -/

namespace Sys2Proof.Machine

/-- Go on with the result of one action; a stop stays that stop. -/
def andThen {σ τ : Type} (o : Host.Outcome σ Fault Refusal) (k : σ → Host.Outcome τ Fault Refusal) :
    Host.Outcome τ Fault Refusal :=
  match o with
  | .next s    => k s
  | .fault r   => .fault r
  | .refused r => .refused r

/-- Every host operation is admitted only while the loop is Halted (rule R140). -/
def whenHalted {τ : Type} (s : State) (o : Host.Outcome τ Fault Refusal) : Host.Outcome τ Fault Refusal :=
  match s.runState with
  | .running => .refused .hostActionDuringRun
  | .halted  => o

/-- Construction, the power-on of an instance, with the memory contents `MEM_INIT` (rules R36, R130).
`PC` is 0x0000: the reset vector is not read (90_conflicts.md C2). -/
def State.construct (memInit : Word → Byte) : State where
  a           := 0x00#8
  x           := 0x00#8
  y           := 0x00#8
  sp          := 0x00#8
  pc          := 0x0000#16
  p           := 0x00#8
  runState    := .halted
  haltCause   := .none
  faultOpcode := 0x00#8
  faultAddr   := 0x0000#16
  mem         := Memory.ofFn memInit

/-- The effect of `reset()` (rule R131): registers and report cleared, `PC` from the reset vector, `MEM` unchanged. -/
def State.afterReset (s : State) : State where
  a           := 0x00#8
  x           := 0x00#8
  y           := 0x00#8
  sp          := 0x00#8
  pc          := s.mem.read16 Config.resetVector
  p           := 0x00#8
  runState    := .halted
  haltCause   := .none
  faultOpcode := 0x00#8
  faultAddr   := 0x0000#16
  mem         := s.mem

/-- `reset()` (rule R131). -/
def hostReset (s : State) : Host.Outcome State Fault Refusal := whenHalted s (.next s.afterReset)

/-- What `load` returns to its caller (rule R134). -/
inductive LoadStatus where
  | ok
  /-- `LoadOverflow`, the host-level condition of rules R115 and R129: nothing is written. -/
  | loadOverflow
deriving DecidableEq, Repr

/-- Memory after `load`: the image at rising addresses from its origin, then the reset vector (rules R134, R136). -/
def loadedMemory (img : ProgramImage) (m : Memory) : Memory :=
  (m.copy img.origin img.bytes).write16 Config.resetVector img.origin

/-- `load(image, origin)` (rules R134, R135): the bound is checked before any byte is written. -/
def load (img : ProgramImage) (s : State) : Host.Outcome (State × LoadStatus) Fault Refusal :=
  whenHalted s
    (if img.wellFormed then .next (s.setMem (loadedMemory img s.mem), .ok) else .next (s, .loadOverflow))

/-- The admission of `run()` (rules R101, R137, R141): Running is entered only from Halted with no ended run. -/
def startRun (s : State) : Host.Outcome State Fault Refusal :=
  whenHalted s
    (match s.haltCause with
    | .none                => .next (s.setRunState .running)
    | .breakHalt           => .refused .runWithoutReset
    | .unimplementedOpcode => .refused .runWithoutReset)

/-- The loop of `run()` (rule R137) under fuel (rule R107, decision D24): it steps while the loop is Running, and
answers the state in which it stopped. A state that is still Running says that the fuel ran out. -/
def runLoop : Nat → State → Host.Outcome State Fault Refusal
  | 0, s        => .next s
  | fuel + 1, s =>
    match s.runState with
    | .halted  => .next s
    | .running => andThen (step s) (runLoop fuel)

/-- `run()` (rule R137) under fuel. -/
def run (fuel : Nat) (s : State) : Host.Outcome State Fault Refusal := andThen (startRun s) (runLoop fuel)

/-- What `run()` returns: the cause of the halt, and nothing while the loop is Running (rules R104, R137). -/
def State.returned (s : State) : Option HaltCause :=
  match s.runState with
  | .running => none
  | .halted  => some s.haltCause

/-- `load_and_run(image)` at a given origin (rule R138): on overflow neither `reset` nor `run` is performed. -/
def loadAndRunAt (origin : Word) (fuel : Nat) (bytes : List Byte) (s : State) :
    Host.Outcome (State × LoadStatus) Fault Refusal :=
  andThen (load ⟨bytes, origin⟩ s) fun (s1, status) =>
    match status with
    | .loadOverflow => .next (s1, .loadOverflow)
    | .ok => andThen (andThen (hostReset s1) (run fuel)) fun s2 => .next (s2, .ok)

/-- `load_and_run(image)` at the parameter `PROGRAM_ORIGIN` (rules R6, R138). -/
def loadAndRun (fuel : Nat) (bytes : List Byte) (s : State) : Host.Outcome (State × LoadStatus) Fault Refusal :=
  loadAndRunAt Config.programOrigin fuel bytes s

/-- The registers and the report as the host reads them (rule R139). -/
structure Observation where
  a           : Byte
  x           : Byte
  y           : Byte
  sp          : Byte
  p           : Byte
  pc          : Word
  runState    : RunState
  haltCause   : HaltCause
  faultOpcode : Byte
  faultAddr   : Word
deriving DecidableEq, Repr

/-- Inspection of the registers and the report, admitted only while Halted (rules R139, R140). It answers no state: reading
changes nothing. -/
def inspect (s : State) : Host.Outcome Observation Fault Refusal :=
  whenHalted s (.next ⟨s.a, s.x, s.y, s.sp, s.p, s.pc, s.runState, s.haltCause, s.faultOpcode, s.faultAddr⟩)

/-- The host's read of one byte of `MEM` (rules R139, R144). -/
def hostRead8 (addr : Word) (s : State) : Host.Outcome Byte Fault Refusal := whenHalted s (.next (s.mem.read8 addr))

/-- The host's write of one byte of `MEM`, the transaction `load` is made of (rule R144). It is no host operation: the host
changes the state by `load`, `reset` and `run` only (rules R34, R35, R139; log entry 16). -/
def hostWrite8 (addr : Word) (v : Byte) (s : State) : Host.Outcome State Fault Refusal :=
  whenHalted s (.next (s.setMem (s.mem.write8 addr v)))

/-- The host operations that may change the state, and no other (rules R34, R35, R139): of `run` its entry, whose steps are
`step`'s. -/
inductive HostOp where
  | reset
  | load (img : ProgramImage)
  | startRun
deriving DecidableEq, Repr

/-- One host operation: the state it leaves. -/
def hostOp (op : HostOp) (s : State) : Host.Outcome State Fault Refusal :=
  match op with
  | .reset    => hostReset s
  | .load img => andThen (load img s) fun (t, _) => .next t
  | .startRun => startRun s

end Sys2Proof.Machine
end

