-- ==== Sys2Proof/Machine/Ports.lean ====
section
/-! DEFINITION. The block's interface at transaction level: the memory port (spec/20_memory.md rules R59, R60) and the status
outputs (spec/70_reset_and_hazards.md rule R144). There is no clock (rules R7, R149). -/

namespace Sys2Proof.Machine

/-- One transaction of the memory port, which moves one byte (rule R59): `mem_addr`, `mem_we`, and the byte on
`mem_wdata` (a write) or `mem_rdata` (a read). -/
structure Transaction where
  addr : Word
  we   : Bool
  data : Byte
deriving DecidableEq, Repr

/-- A read transaction returns the byte stored at its address (rules R41, R59). -/
def readTransaction (m : Memory) (addr : Word) : Transaction := ⟨addr, false, m.read8 addr⟩

/-- Memory after a transaction: a write performs `write8`, a read changes nothing (rules R42, R50, R59). -/
def Memory.perform (m : Memory) (t : Transaction) : Memory := if t.we then m.write8 t.addr t.data else m

/-- The transactions of one step, in order (rules R60, R77): the opcode read, then the operand read of Immediate. -/
def stepTransactions (s : State) : List Transaction := (stepReads s).map (readTransaction s.mem)

/-- The transactions of `reset()`, low byte first (rules R43, R60, R131). -/
def resetTransactions (s : State) : List Transaction :=
  [readTransaction s.mem Config.resetVector, readTransaction s.mem (Config.resetVector + 1)]

/-- The write transactions that store bytes at rising addresses. -/
def copyTransactions : Word → List Byte → List Transaction
  | _, []            => []
  | addr, b :: bytes => ⟨addr, true, b⟩ :: copyTransactions (addr + 1) bytes

/-- The transactions of a `load` that is not an overflow: the image, then the two vector bytes (rules R49, R60, R134). -/
def loadTransactions (img : ProgramImage) : List Transaction :=
  copyTransactions img.origin img.bytes ++
    [⟨Config.resetVector, true, lowByte img.origin⟩, ⟨Config.resetVector + 1, true, highByte img.origin⟩]

/-- One host memory access (rule R144): a write stores its byte, a read changes nothing; admitted in Halted only. -/
def hostAccess (t : Transaction) (s : State) : Host.Outcome State Fault Refusal :=
  if t.we then hostWrite8 t.addr t.data s else whenHalted s (.next s)

/-- A sequence of host memory accesses, one after another, as `load` is one (rule R144). -/
def hostAccesses : List Transaction → State → Host.Outcome State Fault Refusal
  | [], s      => .next s
  | t :: ts, s => andThen (hostAccess t s) (hostAccesses ts)

/-- The 2-bit code of a halt cause on the status output (rule R33, decision D18). -/
def HaltCause.code : HaltCause → BitVec 2
  | .none                => 0b00#2
  | .breakHalt           => 0b01#2
  | .unimplementedOpcode => 0b10#2

/-- The status outputs of the host interface (rule R144). -/
structure StatusOutputs where
  halted      : BitVec 1
  haltCause   : BitVec 2
  faultOpcode : Byte
  faultAddr   : Word
deriving DecidableEq, Repr

/-- The status outputs as the state drives them (rule R144): `halted` is 1 when the loop is Halted. -/
def State.statusOutputs (s : State) : StatusOutputs where
  halted      := match s.runState with
    | .halted  => 1#1
    | .running => 0#1
  haltCause   := s.haltCause.code
  faultOpcode := s.faultOpcode
  faultAddr   := s.faultAddr

end Sys2Proof.Machine
end

