-- ==== Sys2Proof/Safety.lean ====
section
/-! DEFINITION. What claims are stated in: the two endings of a run, the states a host can bring the block to, and the
invariants of the state. -/

namespace Sys2Proof.Machine

/-- The run ended by Break/Halt, the normal end (rule R108, decision D25). -/
def State.NormalEnd (s : State) : Prop := s.runState = .halted ∧ s.haltCause = .breakHalt

/-- The run ended in the fatal condition, a fault (rule R108, decision D25). -/
def State.FatalEnd (s : State) : Prop := s.runState = .halted ∧ s.haltCause = .unimplementedOpcode

/-- The images a host operation stores: that of a `load` within the load bound, and none otherwise (rules R134, R135). -/
def HostOp.stored : HostOp → List ProgramImage
  | .reset    => []
  | .load img => if img.wellFormed then [img] else []
  | .startRun => []

/-- The states reachable from construction with the memory contents `memInit` by host operations and steps, with the images
stored on the way, the oldest first (rules R35, R38): in Halted only `load`, `reset` and `run` change the state, in Running
only the step. -/
inductive ReachableFrom (memInit : Word → Byte) : List ProgramImage → State → Prop where
  | construct : ReachableFrom memInit [] (State.construct memInit)
  | host {images : List ProgramImage} {s t : State} (op : HostOp) :
      ReachableFrom memInit images s → hostOp op s = .next t → ReachableFrom memInit (images ++ op.stored) t
  | step {images : List ProgramImage} {s t : State} :
      ReachableFrom memInit images s → step s = .next t → ReachableFrom memInit images t

/-- The states reachable from construction, with any `MEM_INIT`, by host operations and steps (rules R35, R38). -/
def Reachable (s : State) : Prop := ∃ memInit images, ReachableFrom memInit images s

/-- What the loop state and the error report say of one another (rules R32, R33, R111), and memory's canonical form. -/
structure State.ReportInv (s : State) : Prop where
  memCanonical    : s.mem.wf = true
  runningNoCause  : s.runState = .running → s.haltCause = .none
  reportEmpty     : s.haltCause ≠ .unimplementedOpcode → s.faultOpcode = 0x00#8 ∧ s.faultAddr = 0x0000#16
  reportOfAddress : s.haltCause = .unimplementedOpcode → s.pc = s.faultAddr + 1
  reportOfOpcode  : s.haltCause = .unimplementedOpcode → decodeOpcode s.faultOpcode = none

/-- The derived invariants of the registers (rule R38). -/
structure State.RegisterInv (s : State) : Prop where
  yZero       : s.y = 0x00#8
  spZero      : s.sp = 0x00#8
  unnamedZero : s.p &&& 0x7D#8 = 0x00#8
  notBoth     : s.p ≠ 0x82#8

/-- Memory after a construction with `memInit` and loads of the given images, the oldest first (rules R36, R134). -/
def memoryOfLoads (memInit : Word → Byte) (images : List ProgramImage) : Memory :=
  images.foldl (fun m img => loadedMemory img m) (Memory.ofFn memInit)

/-- `k` steps, stopping at the first state from which no step is taken. -/
def stepN : Nat → State → Host.Outcome State Fault Refusal
  | 0, s     => .next s
  | k + 1, s => andThen (step s) (stepN k)

/-- `k` executions of one instruction, without the fetches between them. -/
def execN (i : Instr) : Nat → State → Host.Outcome State Fault Refusal
  | 0, s     => .next s
  | k + 1, s => andThen (exec i s) (execN i k)

/-- How many bytes the step at a state takes: the length of its instruction, 1 for a failed decode (rules R103, R108). -/
def stepLength (s : State) : Nat :=
  match decodeOpcode (s.mem.read8 s.pc) with
  | none    => 1
  | some op => 1 + op.mode.operandWidth

/-- The bytes taken by `k` steps from a state, each counted at the state it starts from (rule R108). -/
def bytesTaken : Nat → State → Nat
  | 0, _     => 0
  | k + 1, s =>
    match step s with
    | .next t    => stepLength s + bytesTaken k t
    | .fault _   => 0
    | .refused _ => 0

end Sys2Proof.Machine
end

