-- ==== Sys2Proof/Certificates/Slice0/Obligations.lean ====
section
/-! DEFINITION. What this model is claimed to satisfy. Each statement says which rule of spec/ it comes from. Where a clause
rests on a decision of spec/92_eei_decisions.md or on an entry of the assumption log, the docstring says so. -/

open Sys2Proof Sys2Proof.Machine

/-! ### Encoding and decoding -/

/-- Rule R68: the opcode table as a function of the whole byte, with the mode and the operand width of each row; the four
bytes decode and no other does. -/
def Obligations.DecodeOpcodeIsTheTable : Prop :=
  (∀ b : Byte, decodeOpcode b =
    if b = 0x00#8 then some .brk else if b = 0xA9#8 then some .lda
    else if b = 0xAA#8 then some .tax else if b = 0xE8#8 then some .inx else none) ∧
  (Op.brk.mode = .implied ∧ Op.lda.mode = .immediate ∧ Op.tax.mode = .implied ∧ Op.inx.mode = .implied) ∧
  (Mode.implied.operandWidth = 0 ∧ Mode.immediate.operandWidth = 1)

/-- Rules R66, R67, R69: the words of the four rows, written out bit by bit, decode to their instructions; the byte after
the opcode belongs to Load-Accumulator only. -/
def Obligations.SpecWordsDecode : Prop :=
  decode [0b00000000#8, 0xFF#8] = .ok (.brk, [0xFF#8]) ∧
  decode [0b10101001#8, 0b00000101#8, 0b00000000#8] = .ok (.lda 0x05#8, [0x00#8]) ∧
  decode [0b10101010#8, 0xE8#8] = .ok (.tax, [0xE8#8]) ∧
  decode [0b11101000#8] = .ok (.inx, [])

/-- Rules R65 to R71: decode and encode agree in both directions, for every instruction, every operand byte and every
sequence of bytes after it; and every instruction is well formed. -/
def Obligations.DecodeInvertsEncode : Prop :=
  (∀ (bs rest : List Byte) (i : Instr), decode bs = .ok (i, rest) ↔ bs = encode i ++ rest) ∧
  ∀ i : Instr, i.wellFormed = true

/-- A sequence of bytes is rejected by name exactly where its first byte is in no row of the table (rules R68, R72), or is
Load-Accumulator's with no byte after it, or is missing. Rejecting a list that is empty or ends before an operand, under the
names `noByte` and `missingOperand`, is the model's own choice (log entry 15): the rules speak of no such list. -/
def Obligations.DecodeRejectsByName : Prop :=
  ∀ (bs : List Byte) (e : DecodeError), decode bs = .error e ↔
    (bs = [] ∧ e = .noByte) ∨ (bs = [0xA9#8] ∧ e = .missingOperand .lda) ∨
    ∃ b rest, bs = b :: rest ∧ b ≠ 0x00#8 ∧ b ≠ 0xA9#8 ∧ b ≠ 0xAA#8 ∧ b ≠ 0xE8#8 ∧ e = .unimplementedOpcode b

/-- Rule R71: the length of an instruction is a function of its opcode byte alone, 2 for 0xA9 and 1 for the others, and
decoding consumes exactly that many bytes. -/
def Obligations.LengthFromOpcodeByte : Prop :=
  ∀ (b : Byte) (bs rest : List Byte) (i : Instr), decode (b :: bs) = .ok (i, rest) →
    i.length = (if b = 0xA9#8 then 2 else 1) ∧ (b :: bs).length = i.length + rest.length

/-! ### The step runs the decoded instruction -/

/-- Rule R102: where the bytes at `PC` decode to an instruction, a step of a Running loop is its execution with `PC` moved
past its bytes (modulo 65,536: rule R45, decision D6, log entry 1). -/
def Obligations.StepRunsDecodedInstruction : Prop :=
  ∀ (s : State) (i : Instr) (rest : List Byte), s.runState = .running →
    decode [s.mem.read8 s.pc, s.mem.read8 (s.pc + 1)] = .ok (i, rest) →
    step s = exec i { s with pc := s.pc + BitVec.ofNat 16 i.length }

/-- The model's own placing of a word (log entry 4): the very next step fetches and runs the instruction the decoder reads
from that word, from any state, wherever `PC` points. `PC` past 0xFFFF wraps (decision D6, log entry 1). -/
def Obligations.PlacedWordRunsNext : Prop :=
  ∀ (s : State) (nbits w : Nat) (i : Instr), decodeTableWord nbits w = some i →
    step (s.withFetchWord nbits w) =
      exec i { s.withFetchWord nbits w with pc := s.pc + BitVec.ofNat 16 i.length }

/-! ### Each instruction: its execution, its completion, its frame -/

/-- Rule R90, the two statements after the fetches: Load-Accumulator completes in every state, with `A` the operand and only
bits 1 and 7 of `P` recomputed from it; everything not named here keeps its value. -/
def Obligations.ExecLdaResult : Prop :=
  ∀ (s : State) (v : Byte), exec (.lda v) s = .next { s with
    a := v
    p := (s.p &&& 0x7D#8) ||| (if v = 0x00#8 then 0x02#8 else 0x00#8) ||| (v &&& 0x80#8) }

/-- Rule R91, the two statements after the fetch: Transfer-Accumulator-to-Index-X completes in every state. -/
def Obligations.ExecTaxResult : Prop :=
  ∀ s : State, exec .tax s = .next { s with
    x := s.a
    p := (s.p &&& 0x7D#8) ||| (if s.a = 0x00#8 then 0x02#8 else 0x00#8) ||| (s.a &&& 0x80#8) }

/-- Rule R92, the two statements after the fetch: Increment-Index-X completes in every state, wrapping at 256; the flags
come from the new `X`, written here by what the old one was. -/
def Obligations.ExecInxResult : Prop :=
  ∀ s : State, exec .inx s = .next { s with
    x := BitVec.ofNat 8 ((s.x.toNat + 1) % 256)
    p := (s.p &&& 0x7D#8) ||| (if s.x = 0xFF#8 then 0x02#8 else 0x00#8) |||
      (if 0x7F ≤ s.x.toNat ∧ s.x.toNat ≤ 0xFE then 0x80#8 else 0x00#8) }

/-- Rule R93, the two statements after the fetch: Break/Halt completes in every state; the loop is Halted with cause Break
and nothing else changes, no flag and no byte of memory. -/
def Obligations.ExecBrkResult : Prop :=
  ∀ s : State, exec .brk s = .next { s with runState := .halted, haltCause := .breakHalt }

/-- Rule R90, the whole step of Load-Accumulator, Immediate: the operand is the byte after the opcode, `PC` moves by 2, and
nothing but `A`, `PC` and bits 1 and 7 of `P` changes. `PC` past 0xFFFF wraps (rule R45, decision D6, log entry 1). -/
def Obligations.StepLoadAccumulator : Prop :=
  ∀ (s : State) (v : Byte), s.runState = .running → s.mem.read8 s.pc = 0xA9#8 → s.mem.read8 (s.pc + 1) = v →
    step s = .next { s with
      a := v
      p := (s.p &&& 0x7D#8) ||| (if v = 0x00#8 then 0x02#8 else 0x00#8) ||| (v &&& 0x80#8)
      pc := s.pc + 2 }

/-- Rule R91, the whole step of Transfer-Accumulator-to-Index-X. `PC` past 0xFFFF wraps (rule R45, decision D6, log entry
1). -/
def Obligations.StepTransferAccumulatorToX : Prop :=
  ∀ s : State, s.runState = .running → s.mem.read8 s.pc = 0xAA#8 →
    step s = .next { s with
      x := s.a
      p := (s.p &&& 0x7D#8) ||| (if s.a = 0x00#8 then 0x02#8 else 0x00#8) ||| (s.a &&& 0x80#8)
      pc := s.pc + 1 }

/-- Rule R92, the whole step of Increment-Index-X: 8-bit, unsigned, wrapping, with no flag but Zero and Negative. `PC` past
0xFFFF wraps (rule R45, decision D6, log entry 1). -/
def Obligations.StepIncrementX : Prop :=
  ∀ (s : State) (v : Byte), s.runState = .running → s.mem.read8 s.pc = 0xE8#8 →
    v = BitVec.ofNat 8 ((s.x.toNat + 1) % 256) →
    step s = .next { s with
      x := v
      p := (s.p &&& 0x7D#8) ||| (if v = 0x00#8 then 0x02#8 else 0x00#8) ||| (v &&& 0x80#8)
      pc := s.pc + 1 }

/-- Rule R93, the whole step of Break/Halt: `PC` moves past the opcode only, the loop halts with cause Break, and nothing
else changes. `PC` past 0xFFFF wraps (rule R45, decision D6, log entry 1). -/
def Obligations.StepBreakHalt : Prop :=
  ∀ s : State, s.runState = .running → s.mem.read8 s.pc = 0x00#8 →
    step s = .next { s with pc := s.pc + 1, runState := .halted, haltCause := .breakHalt }

/-- Rule R91 corner case (e): a second transfer changes nothing. -/
def Obligations.TransferTwiceSameAsOnce : Prop :=
  ∀ s t : State, exec .tax s = .next t → t.x = s.a ∧ exec .tax t = .next t

/-- Rule R92, repeated: after any number of increments `X` is the sum modulo 256 and the flags are those of the last one; so
256 of them return `X` to its start (corner case (e)). -/
def Obligations.RepeatedIncrementsWrap : Prop :=
  ∀ (s : State) (k : Nat), ∃ t, execN .inx (k + 1) s = .next t ∧
    t = { s with x := t.x, p := t.p } ∧
    t.x.toNat = (s.x.toNat + (k + 1)) % 256 ∧
    t.p = (s.p &&& 0x7D#8) ||| (if t.x = 0x00#8 then 0x02#8 else 0x00#8) ||| (t.x &&& 0x80#8)

/-- The frame of every execution (the "Not written" lines of rules R90 to R93): every byte of memory, `Y`, `SP`, `PC` and
the report stay; `A` changes only by Load-Accumulator, `X` only by the other two writers, the loop state only by Break/Halt;
the six unnamed bits of `P` stay, and Break/Halt leaves all of `P`. That `Y` exists is decision D3 (log entry 9), that the
unnamed bits are storage decision D5 (log entry 10). -/
def Obligations.ExecFrame : Prop :=
  ∀ (i : Instr) (s t : State), exec i s = .next t →
    (∀ addr : Word, t.mem.read8 addr = s.mem.read8 addr) ∧
    t.y = s.y ∧ t.sp = s.sp ∧ t.pc = s.pc ∧ t.faultOpcode = s.faultOpcode ∧ t.faultAddr = s.faultAddr ∧
    ((∀ v, i ≠ .lda v) → t.a = s.a) ∧
    (i ≠ .tax → i ≠ .inx → t.x = s.x) ∧
    (i ≠ .brk → t.runState = s.runState ∧ t.haltCause = s.haltCause) ∧
    (i = .brk → t.p = s.p) ∧
    t.p &&& 0x7D#8 = s.p &&& 0x7D#8

/-- The frame of every step, a failed decode among them (rules R35, R60, R109, R112): no step writes memory, `Y` or `SP`;
`A` changes only at 0xA9, `X` only at 0xAA and 0xE8, `P` only at those three, the error report only at a byte in no row of
the table. That `Y` exists is decision D3 (log entry 9), that the unnamed bits are storage decision D5 (log entry 10). -/
def Obligations.StepFrame : Prop :=
  ∀ s t : State, step s = .next t →
    t.mem = s.mem ∧ t.y = s.y ∧ t.sp = s.sp ∧
    (s.mem.read8 s.pc ≠ 0xA9#8 → t.a = s.a) ∧
    (s.mem.read8 s.pc ≠ 0xAA#8 → s.mem.read8 s.pc ≠ 0xE8#8 → t.x = s.x) ∧
    (s.mem.read8 s.pc ≠ 0xA9#8 → s.mem.read8 s.pc ≠ 0xAA#8 → s.mem.read8 s.pc ≠ 0xE8#8 → t.p = s.p) ∧
    t.p &&& 0x7D#8 = s.p &&& 0x7D#8 ∧
    (decodeOpcode (s.mem.read8 s.pc) ≠ none → t.faultOpcode = s.faultOpcode ∧ t.faultAddr = s.faultAddr)

/-! ### Flags -/

/-- Rule R30: `SetZN` is its one-expression form, writes nothing but `P`, sets Zero iff the value is 0x00 and Negative to
its bit 7, and never leaves both set. -/
def Obligations.SetZNMasksAndSets : Prop :=
  ∀ (s : State) (v : Byte),
    s.setZN v = { s with
      p := (s.p &&& 0x7D#8) ||| (if v = 0x00#8 then 0x02#8 else 0x00#8) ||| (v &&& 0x80#8) } ∧
    ((s.setZN v).zero = true ↔ v = 0x00#8) ∧
    (s.setZN v).negative = v.getLsbD 7 ∧
    ¬((s.setZN v).zero = true ∧ (s.setZN v).negative = true)

/-- Rule R31: the flags come from the new `A` after Load-Accumulator and from the new `X` after the transfer and the
increment; no instruction touches another bit; Break/Halt, the opcode fetch, the resolver and a failed decode write no flag. -/
def Obligations.FlagDiscipline : Prop :=
  (∀ (s t : State) (v : Byte), exec (.lda v) s = .next t → t.zero = (t.a == 0x00#8) ∧ t.negative = t.a.getLsbD 7) ∧
  (∀ (s t : State) (i : Instr), i = .tax ∨ i = .inx → exec i s = .next t →
    t.zero = (t.x == 0x00#8) ∧ t.negative = t.x.getLsbD 7) ∧
  (∀ (s t : State) (i : Instr), exec i s = .next t →
    ∀ bit, bit < 8 → bit ≠ 1 → bit ≠ 7 → t.p.getLsbD bit = s.p.getLsbD bit) ∧
  (∀ s t : State, exec .brk s = .next t → t.p = s.p) ∧
  (∀ s : State, s.fetchByte.2.p = s.p) ∧
  (∀ (mode : Mode) (s : State), (resolve mode s).2.p = s.p) ∧
  ∀ (s t : State), decodeOpcode (s.mem.read8 s.pc) = none → step s = .next t → t.p = s.p

/-! ### The resolver, the step and the ways a run ends -/

/-- Rules R80 to R83: Implied gives no operand and leaves the state; Immediate gives the address in `PC` and the byte at it,
and moves `PC` by one, modulo 65,536. The wrap is decision D6 (log entry 1). -/
def Obligations.ResolverResult : Prop :=
  (∀ s : State, resolve .implied s = (.none, s)) ∧
  ∀ s : State, resolve .immediate s =
    (.at s.pc (s.mem.read8 s.pc), { s with pc := BitVec.ofNat 16 ((s.pc.toNat + 1) % 65536) })

/-- Rules R111, R112: a byte in no row of the table halts the loop with its value and the address it was fetched from; `PC`
has moved by one and nothing else changes. That the report holds the byte's own address is decision D12 (log entry 11). That
it holds at any instruction position is decision D26 (log entry 18), that `PC` past 0xFFFF wraps decision D6 (log entry 1). -/
def Obligations.StepUnimplementedOpcode : Prop :=
  ∀ (s : State) (b : Byte), s.runState = .running → s.mem.read8 s.pc = b →
    b ≠ 0x00#8 → b ≠ 0xA9#8 → b ≠ 0xAA#8 → b ≠ 0xE8#8 →
    step s = .next { s with
      pc := s.pc + 1
      runState := .halted
      haltCause := .unimplementedOpcode
      faultOpcode := b
      faultAddr := s.pc }

/-- Rule R103: the program-counter law, for every step. The reduction modulo 65,536 is decision D6 (log entry 1). -/
def Obligations.ProgramCounterLaw : Prop :=
  ∀ s t : State, step s = .next t →
    t.pc.toNat = (s.pc.toNat + (if s.mem.read8 s.pc = 0xA9#8 then 2 else 1)) % 65536

/-- Rules R100, R102, R105: a step is taken when and only when the loop is Running, and then it always completes. In Halted
the model answers the fault that says why (its own form of "no step", log entry 5; decision D25, log entry 18). That a step
past 0xFFFF completes too is decision D6 (log entry 1). -/
def Obligations.StepTakenExactlyWhileRunning : Prop :=
  ∀ s : State,
    (s.runState = .running → ∃ t, step s = .next t) ∧
    (s.runState = .halted → s.haltCause = .unimplementedOpcode →
      step s = .fault (.unimplementedOpcode s.faultOpcode s.faultAddr)) ∧
    (s.runState = .halted → s.haltCause ≠ .unimplementedOpcode → step s = .fault .halted)

/-- Rules R104, R111: a step leaves Running exactly at a Break/Halt byte or a byte in no row of the table, and each sets its
own cause; any other step leaves the loop Running and the cause as it was. That the report holds the byte's own address is
decision D12 (log entry 11). That no step stops for passing 0xFFFF is decision D6 (log entry 1). -/
def Obligations.HaltsOnlyByBreakOrUnimplemented : Prop :=
  ∀ s t : State, step s = .next t →
    (t.runState = .halted ↔ s.mem.read8 s.pc = 0x00#8 ∨ decodeOpcode (s.mem.read8 s.pc) = none) ∧
    (s.mem.read8 s.pc = 0x00#8 → t.haltCause = .breakHalt) ∧
    (decodeOpcode (s.mem.read8 s.pc) = none →
      t.haltCause = .unimplementedOpcode ∧ t.faultOpcode = s.mem.read8 s.pc ∧ t.faultAddr = s.pc) ∧
    (t.runState = .running → t.haltCause = s.haltCause)

/-- Rule R114: nothing raises Out-of-Bounds Address: no execution, no step, no host operation. The condition is unreachable
by decision D13 (log entry 18), addresses wrap by decision D6 (log entry 1). -/
def Obligations.NothingRaisesOutOfBounds : Prop :=
  (∀ (i : Instr) (s : State), exec i s ≠ .fault .outOfBoundsAddress) ∧
  (∀ s : State, step s ≠ .fault .outOfBoundsAddress) ∧
  (∀ (op : HostOp) (s : State), hostOp op s ≠ .fault .outOfBoundsAddress) ∧
  ∀ (fuel : Nat) (s : State), run fuel s ≠ .fault .outOfBoundsAddress

/-- Rules R58, R60: a step depends on no byte of memory but those it reads. Replace memory by any other that agrees at those
addresses: the step goes the same way. The operand byte of an opcode at 0xFFFF is at 0x0000 by decision D6 (log entry 1). -/
def Obligations.StepDependsOnlyOnBytesRead : Prop :=
  ∀ (s t : State) (m : Memory), (∀ a ∈ stepReads s, m.read8 a = s.mem.read8 a) → step s = .next t →
    step { s with mem := m } = .next { t with mem := m }

/-- Rules R60, R77: the bytes a step reads are those of its instruction, one by one from `PC` up, each once; `PC` moves by
exactly as many; and no transaction of a step is a write. Addresses past 0xFFFF wrap by decision D6 (log entry 1). -/
def Obligations.StepReadsInstructionBytesOnce : Prop :=
  ∀ s t : State, step s = .next t →
    stepReads s = (List.range (stepLength s)).map (fun k => s.pc + BitVec.ofNat 16 k) ∧
    (stepReads s).Nodup ∧
    t.pc = s.pc + BitVec.ofNat 16 (stepReads s).length ∧
    ∀ tr ∈ stepTransactions s, tr.we = false ∧ tr.data = s.mem.read8 tr.addr

/-! ### Invariants -/

/-- Rules R32, R33, R111: every step keeps memory's canonical form and the agreement of the loop state with the report. That
the report holds the byte's own address is decision D12 (log entry 11). That a run has no cause while Running is decision
D10 (log entry 11), that `PC` wraps decision D6 (log entry 1). -/
def Obligations.StepKeepsReportInv : Prop :=
  ∀ s t : State, s.ReportInv → step s = .next t → t.ReportInv

/-- Every host operation keeps the same invariant (rules R131, R134, R137), and so does each host write of one byte (rule
R144; that such a write may stand outside a `load` is log entry 16). That `reset()` clears the report is decision D16, that
the loop is Halted outside a run decision D10 (log entry 11). -/
def Obligations.HostOpKeepsReportInv : Prop :=
  (∀ (op : HostOp) (s t : State), s.ReportInv → hostOp op s = .next t → t.ReportInv) ∧
  ∀ (a : Word) (v : Byte) (s t : State), s.ReportInv → hostWrite8 a v s = .next t → t.ReportInv

/-- Rule R38: every step keeps the invariants of the registers. That `Y` exists is decision D3 (log entry 9), that the
unnamed bits are storage decision D5 (log entry 10). -/
def Obligations.StepKeepsRegisterInv : Prop :=
  ∀ s t : State, s.RegisterInv → step s = .next t → t.RegisterInv

/-- Both invariants hold at the state after reset. The values rest on decisions D3, D4, D5, D10 and D16 (log entries 8 to
11), the empty memory on log entry 2. -/
def Obligations.ResetMeetsInvariants : Prop := State.reset.ReportInv ∧ State.reset.RegisterInv

/-- Rule R38, derived there from rules R36, R37, R90 to R93 and R30: in every state that construction with any `MEM_INIT`,
host operations and steps lead to, both invariants hold; memory is that very `MEM_INIT` changed by the loads made on the
way, all within the load bound, in their order, and by nothing else; and in any state, reachable or not, a step and a host
operation that is no `load` keep memory. The invariants rest on decision D12 (log entry 11) and on
decisions D3, D4, D5, D10 and D16 (log entries 8 to 11). -/
def Obligations.ReachableMeetsInvariants : Prop :=
  (∀ s : State, Reachable s → s.ReportInv ∧ s.RegisterInv) ∧
  (∀ (memInit : Word → Byte) (images : List ProgramImage) (s : State), ReachableFrom memInit images s →
    (∀ img ∈ images, img.wellFormed = true) ∧ s.mem = memoryOfLoads memInit images) ∧
  (∀ (op : HostOp) (s t : State), hostOp op s = .next t → (∀ img, op ≠ .load img) → t.mem = s.mem) ∧
  ∀ s t : State, step s = .next t → t.mem = s.mem

/-! ### Memory -/

/-- The canonical form is one: two canonical memories that read alike at every address are the same data. -/
def Obligations.CanonicalMemoryExtensional : Prop :=
  ∀ m n : Memory, m.wf = true → n.wf = true → (∀ a : Word, m.read8 a = n.read8 a) → m = n

/-- Rules R43, R44: a 16-bit access is little-endian, its high byte at the next address modulo 65,536; `write16` changes its
two bytes and no other; and reading back gives the value written, at every address: at 0xFFFF by decision D7 (log entry 1),
since rule R44 gives the round trip only where two bytes fit. -/
def Obligations.SixteenBitAccess : Prop :=
  (∀ (m : Memory) (a : Word), (m.read16 a).toNat = (m.read8 a).toNat + 256 * (m.read8 (a + 1)).toNat) ∧
  ∀ (m : Memory) (a v : Word),
    (m.write16 a v).read16 a = v ∧
    ((m.write16 a v).read8 a).toNat = v.toNat % 256 ∧
    ((m.write16 a v).read8 (a + 1)).toNat = v.toNat / 256 ∧
    ∀ b : Word, b ≠ a → b ≠ a + 1 → (m.write16 a v).read8 b = m.read8 b

/-- Rules R41, R42, R56: after any sequence of transactions of the memory port, a byte reads as the latest write to its
address, and as before where there is none. -/
def Obligations.ReadGivesLatestWrite : Prop :=
  ∀ (m : Memory) (ts : List Transaction) (a : Word),
    (ts.foldl Memory.perform m).read8 a =
      ((ts.reverse.find? (fun t => t.we && t.addr == a)).map Transaction.data).getD (m.read8 a)

/-- Rules R36, R130: construction zeros every register, `PC` too, leaves the loop Halted with no cause (decision D10, log
entry 11), and memory holds any given `MEM_INIT` byte for byte. `Y` is there by decision D3 (log entry 9), the unnamed bits
of `P` by decision D5 (log entry 10). -/
def Obligations.ConstructionHoldsMemInit : Prop :=
  ∀ (memInit : Word → Byte), ∃ m : Memory,
    State.construct memInit =
      { a := 0, x := 0, y := 0, sp := 0, pc := 0, p := 0, runState := .halted, haltCause := .none
        faultOpcode := 0, faultAddr := 0, mem := m } ∧
    ∀ addr : Word, m.read8 addr = memInit addr

/-- Rules R24, R52: the address the stack pointer stands for is `0x0100 + SP`, inside the stack page. -/
def Obligations.StackAddressInStackPage : Prop :=
  ∀ s : State, s.stackAddress.toNat = 0x0100 + s.sp.toNat ∧ 0x0100 ≤ s.stackAddress.toNat ∧
    s.stackAddress.toNat ≤ 0x01FF

/-! ### The host operations -/

/-- Rule R131 (its `SP` is decision D4, log entry 8; its report decision D16, log entry 11): what `reset()` leaves, from any
Halted state; `MEM` keeps every byte. -/
def Obligations.ResetResult : Prop :=
  ∀ s : State, s.runState = .halted →
    hostReset s = .next
      { a := 0, x := 0, y := 0, sp := 0, pc := s.mem.read8 0xFFFD#16 ++ s.mem.read8 0xFFFC#16, p := 0
        runState := .halted, haltCause := .none, faultOpcode := 0, faultAddr := 0, mem := s.mem }

/-- Rule R131: the result of `reset()` depends on the two vector bytes alone, whatever the registers, the report and the
rest of memory were; and a second `reset()` changes nothing. That `SP` and the report are cleared too is decisions D4 and
D16 (log entries 8 and 11). -/
def Obligations.ResetForgetsTheRun : Prop :=
  ∀ s t u v : State, hostReset s = .next u → hostReset t = .next v →
    s.mem.read8 0xFFFC#16 = t.mem.read8 0xFFFC#16 → s.mem.read8 0xFFFD#16 = t.mem.read8 0xFFFD#16 →
    { u with mem := t.mem } = v ∧ hostReset u = .next u

/-- Vector RS2 of 95_test_vectors.md: `reset()` right after construction with the default `MEM_INIT` is the model's
`State.reset` (log entry 2). The values rest on decisions D3, D4, D5, D10 and D16 (log entries 8 to 11). -/
def Obligations.PowerOnResetIsResetState : Prop :=
  hostReset (State.construct (fun _ => Config.unlistedByte)) = .next State.reset

/-- Rules R101, R137, R141 (decision D11, log entry 7): `run()` enters Running exactly from Halted with no ended run, and
changes nothing else; after an ended run, and during one, it is refused. The refusal during a run is decision D15 (log entry
6). -/
def Obligations.RunAdmission : Prop :=
  (∀ s t : State, startRun s = .next t ↔
    s.runState = .halted ∧ s.haltCause = .none ∧ t = { s with runState := .running }) ∧
  (∀ s : State, s.runState = .halted → s.haltCause ≠ .none → startRun s = .refused .runWithoutReset) ∧
  ∀ s : State, s.runState = .running → startRun s = .refused .hostActionDuringRun

/-- Rule R101: `run()` sets the loop Running and changes nothing else, so that the first step fetches at the `PC` it found;
and no other host operation and no step leads into Running. That construction is Halted is decision D10 (log entry 11): the
source does not say what the loop state is before the first `run()`. -/
def Obligations.RunIsTheOnlyWayIntoRunning : Prop :=
  (∀ (op : HostOp) (s t : State), hostOp op s = .next t → t.runState = .running →
    op = .startRun ∧ t = { s with runState := .running }) ∧
  (∀ s t : State, step s = .next t → t.runState = .running → s.runState = .running) ∧
  ∀ memInit : Word → Byte, (State.construct memInit).runState = .halted

/-- Rule R134: `load` copies the image to rising addresses from its origin, then writes the reset vector, and changes
nothing else; where the image would pass the end of memory nothing is written (rule R135). Where image and vector overlap
the vector wins (rule R136, decision D14, log entry 12); during a run it is not admitted (rule R140, decision D15, log entry
6). -/
def Obligations.LoadStoresImageThenVector : Prop :=
  (∀ (img : ProgramImage) (s : State), s.runState = .running → load img s = .refused .hostActionDuringRun) ∧
  ∀ (img : ProgramImage) (s : State), s.runState = .halted →
    (65536 < img.origin.toNat + img.bytes.length → load img s = .next (s, .loadOverflow)) ∧
    (img.origin.toNat + img.bytes.length ≤ 65536 → ∃ m : Memory, load img s = .next ({ s with mem := m }, .ok) ∧
      ∀ addr : Word, m.read8 addr =
        if addr = 0xFFFC#16 then BitVec.ofNat 8 (img.origin.toNat % 256)
        else if addr = 0xFFFD#16 then BitVec.ofNat 8 (img.origin.toNat / 256)
        else if img.origin.toNat ≤ addr.toNat then
          (img.bytes[addr.toNat - img.origin.toNat]?).getD (s.mem.read8 addr)
        else s.mem.read8 addr)

/-- Rule R115: Load-Overflow is reported exactly where origin and length pass the address space, computed without wrap, and
then nothing at all has changed. -/
def Obligations.LoadOverflowChangesNothing : Prop :=
  ∀ (img : ProgramImage) (s t : State) (status : LoadStatus), load img s = .next (t, status) →
    (status = .loadOverflow ↔ 0x10000 < img.origin.toNat + img.bytes.length) ∧
    (status = .loadOverflow → t = s)

/-- Rules R131, R132, R134, R142: a `reset()` after a `load` that was not an overflow starts at the image's origin, with
every register zero, even where the image covered the vector. That the origin wins where the image covered the vector is
decision D14 (log entry 12; rule R136: the source says nothing of this case); the zero `SP` and the empty report are
decisions D4 and D16 (log entries 8 and 11). -/
def Obligations.LoadThenResetStartsAtOrigin : Prop :=
  ∀ (img : ProgramImage) (s t : State), load img s = .next (t, .ok) →
    hostReset t = .next { t with
      a := 0, x := 0, y := 0, sp := 0, pc := img.origin, p := 0, runState := .halted, haltCause := .none
      faultOpcode := 0, faultAddr := 0 }

/-- Rule R138: `load_and_run` is `load`, `reset`, `run` in that order, and performs neither `reset` nor `run` after an
overflow (decision D14, log entry 12); it runs at the parameter `PROGRAM_ORIGIN`, whose value nothing here depends on. The
state `reset()` leaves has its `SP` by decision D4 and its report by decision D16 (log entries 8 and 11); where the image
covered the vector `PC` is the origin by decision D14; fuel is the model's own (log entry 13). -/
def Obligations.LoadAndRunComposes : Prop :=
  (∀ (fuel : Nat) (bytes : List Byte) (s : State),
    loadAndRun fuel bytes s = loadAndRunAt Config.programOrigin fuel bytes s) ∧
  (∀ (origin : Word) (fuel : Nat) (bytes : List Byte) (s : State),
    load ⟨bytes, origin⟩ s = .next (s, .loadOverflow) →
    loadAndRunAt origin fuel bytes s = .next (s, .loadOverflow)) ∧
  ∀ (origin : Word) (fuel : Nat) (bytes : List Byte) (s t u : State),
    load ⟨bytes, origin⟩ s = .next (t, .ok) →
    run fuel { t with
      a := 0, x := 0, y := 0, sp := 0, pc := origin, p := 0, runState := .halted, haltCause := .none
      faultOpcode := 0, faultAddr := 0 } = .next u →
    loadAndRunAt origin fuel bytes s = .next (u, .ok)

/-- Rules R139, R140 (decision D15, log entry 6): during a run every host operation is refused; in Halted inspection gives
the registers, the report and every byte of memory as they are. -/
def Obligations.HostActsOnlyWhileHalted : Prop :=
  (∀ s : State, s.runState = .running →
    (∀ op : HostOp, hostOp op s = .refused .hostActionDuringRun) ∧
    (∀ (origin : Word) (fuel : Nat) (bytes : List Byte),
      loadAndRunAt origin fuel bytes s = .refused .hostActionDuringRun) ∧
    (∀ fuel : Nat, run fuel s = .refused .hostActionDuringRun) ∧
    inspect s = .refused .hostActionDuringRun ∧
    ∀ addr : Word, hostRead8 addr s = .refused .hostActionDuringRun) ∧
  ∀ s : State, s.runState = .halted →
    inspect s = .next ⟨s.a, s.x, s.y, s.sp, s.p, s.pc, s.runState, s.haltCause, s.faultOpcode, s.faultAddr⟩ ∧
    ∀ addr : Word, hostRead8 addr s = .next (s.mem.read8 addr)

/-- Rules R33, R144 (decision D18, log entry 11): the status outputs. `halted` is 1 exactly in Halted, each cause has its
code, 0b11 is never produced, and the report is driven as it stands. -/
def Obligations.StatusOutputCodes : Prop :=
  ∀ s : State,
    (s.statusOutputs.halted = 1#1 ↔ s.runState = .halted) ∧
    (s.statusOutputs.haltCause = 0b00#2 ↔ s.haltCause = .none) ∧
    (s.statusOutputs.haltCause = 0b01#2 ↔ s.haltCause = .breakHalt) ∧
    (s.statusOutputs.haltCause = 0b10#2 ↔ s.haltCause = .unimplementedOpcode) ∧
    s.statusOutputs.haltCause ≠ 0b11#2 ∧
    s.statusOutputs.faultOpcode = s.faultOpcode ∧ s.statusOutputs.faultAddr = s.faultAddr

/-- Rules R49, R59, R60: `load` is its write transactions, one for each image byte and two for the vector, performed in
order; `reset()` reads the two vector bytes, low byte first (decision D23, log entry 18), and writes none. Rule R144: a
`load` in Halted is that sequence of host memory accesses. -/
def Obligations.HostTransactions : Prop :=
  (∀ (img : ProgramImage) (s : State), s.runState = .halted → img.origin.toNat + img.bytes.length ≤ 65536 →
    ∃ t, hostAccesses (loadTransactions img) s = .next t ∧ load img s = .next (t, .ok)) ∧
  (∀ (img : ProgramImage) (m : Memory), (loadTransactions img).foldl Memory.perform m = loadedMemory img m) ∧
  (∀ img : ProgramImage, (loadTransactions img).length = img.bytes.length + 2 ∧
    ∀ t ∈ loadTransactions img, t.we = true) ∧
  ∀ s : State, resetTransactions s =
    [⟨0xFFFC#16, false, s.mem.read8 0xFFFC#16⟩, ⟨0xFFFD#16, false, s.mem.read8 0xFFFD#16⟩]

/-- Rules R42, R144: a host write of one byte of memory, the transaction of a `load`, stores that byte, changes no other
byte and nothing but memory; during a run it is refused (decision D15, log entry 6). That the model has it as a function of
its own, beside `load`, is the model's choice (log entry 16): rules R34 and R139 name `load`, `reset` and `run` alone. -/
def Obligations.HostWriteStoresOneByte : Prop :=
  (∀ (s : State) (a : Word) (v : Byte), s.runState = .halted → ∃ m : Memory,
    hostWrite8 a v s = .next { s with mem := m } ∧
    ∀ b : Word, m.read8 b = if b = a then v else s.mem.read8 b) ∧
  ∀ (s : State) (a : Word) (v : Byte), s.runState = .running → hostWrite8 a v s = .refused .hostActionDuringRun

/-! ### Whole runs -/

/-- Rules R104, R108, R137: where the loop of `run()` answers a Halted state, that state is the first Halted one along the
steps. The bound by the fuel is the model's own (log entry 13). -/
def Obligations.RunStopsAtFirstHaltedState : Prop :=
  ∀ (fuel : Nat) (s t : State), runLoop fuel s = .next t → t.runState = .halted →
    ∃ k, k ≤ fuel ∧ stepN k s = .next t ∧ ∀ j, j < k → ∃ u, stepN j s = .next u ∧ u.runState = .running

/-- Rules R102, R107 (decision D24, log entry 13): the loop always answers a state under any fuel, Running only if the fuel
ran out; and once it answers a Halted state, more fuel gives the same. Fuel is the model's own (log entry 13); that a step
past 0xFFFF completes is decision D6 (log entry 1). -/
def Obligations.RunResultIndependentOfFuel : Prop :=
  (∀ (fuel : Nat) (s : State), ∃ t, runLoop fuel s = .next t ∧ (t.runState = .running → stepN fuel s = .next t)) ∧
  ∀ (fuel more : Nat) (s t : State), runLoop fuel s = .next t → t.runState = .halted →
    runLoop (fuel + more) s = .next t

/-- Rule R107: a run ends if and only if some step of it fetches, as an opcode, a byte that is 0x00 or is not in the opcode
table. That a run does not also end by passing 0xFFFF is decision D6 (log entry 1); fuel is the model's own (log entry 13). -/
def Obligations.RunEndsIffHaltingByteFetched : Prop :=
  ∀ s : State, s.runState = .running →
    ((∃ fuel t, runLoop fuel s = .next t ∧ t.runState = .halted) ↔
      ∃ k u, stepN k s = .next u ∧ u.runState = .running ∧
        (u.mem.read8 u.pc = 0x00#8 ∨ decodeOpcode (u.mem.read8 u.pc) = none))

/-- Rule R107: over a memory in which every byte is 0xA9, 0xAA or 0xE8 the loop runs for ever. The run is infinite only
because `PC` wraps past 0xFFFF (rule R107: "With `PC` wrapping"), which is decision D6 (log entry 1, unsafe for this claim). -/
def Obligations.NoHaltingByteRunsForever : Prop :=
  ∀ s : State, s.runState = .running →
    (∀ a : Word, s.mem.read8 a = 0xA9#8 ∨ s.mem.read8 a = 0xAA#8 ∨ s.mem.read8 a = 0xE8#8) →
    ∀ k : Nat, ∃ t, stepN k s = .next t ∧ t.runState = .running

/-- Rule R108, derived there from rule R103: after `k` steps `PC` is the starting one plus the bytes taken, modulo 65,536.
The reduction modulo 65,536 is decision D6 (log entry 1). -/
def Obligations.ProgramCounterAfterRun : Prop :=
  ∀ (k : Nat) (s t : State), stepN k s = .next t → t.pc = s.pc + BitVec.ofNat 16 (bytesTaken k s)

/-- Rules R56, R60: a whole run changes no byte of memory, and neither `Y` nor `SP`. That `Y` exists is decision D3 (log
entry 9); fuel is the model's own (log entry 13). -/
def Obligations.RunKeepsMemory : Prop :=
  ∀ (fuel : Nat) (s t : State), run fuel s = .next t → t.mem = s.mem ∧ t.y = s.y ∧ t.sp = s.sp

/-- Rules R108, R119, R120 (decisions D12 and D25, log entries 11 and 18): a run that ends, ends normally or fatally and not
both; and a fatal report is true: its byte stands at its address, is in no row of the table, and `PC` is the address after
it. That a run does not also end by passing 0xFFFF, and that `PC` after it is 0x0000, is decision D6 (log entry 1). -/
def Obligations.RunEndsNormalOrFatal : Prop :=
  ∀ (fuel : Nat) (s t : State), run fuel s = .next t → t.runState = .halted →
    (t.NormalEnd ∧ ¬t.FatalEnd ∧ t.mem.read8 (t.pc - 1) = 0x00#8) ∨
    (t.FatalEnd ∧ ¬t.NormalEnd ∧ t.mem.read8 t.faultAddr = t.faultOpcode ∧
      decodeOpcode t.faultOpcode = none ∧ t.pc = t.faultAddr + 1)

/-- Rule R116: a second `reset()` and `run()` over the same memory ends in the same state. Fuel is the model's own (log
entry 13); that `reset()` clears `SP` and the report is decisions D4 and D16 (log entries 8 and 11). -/
def Obligations.RerunAfterResetEndsTheSame : Prop :=
  ∀ (fuel : Nat) (s t : State), andThen (hostReset s) (run fuel) = .next t → t.runState = .halted →
    andThen (hostReset t) (run fuel) = .next t
end

