-- ==== Sys2Proof/Laws/State.lean ====
section
/-! SUPPORT. One lemma for each field of State under each named update. -/

namespace Sys2Proof.Machine

variable (s : State)

/-! ### `setA` -/

@[simp] theorem State.setA_a (v : Byte) : (s.setA v).a = v := rfl
@[simp] theorem State.setA_x (v : Byte) : (s.setA v).x = s.x := rfl
@[simp] theorem State.setA_y (v : Byte) : (s.setA v).y = s.y := rfl
@[simp] theorem State.setA_sp (v : Byte) : (s.setA v).sp = s.sp := rfl
@[simp] theorem State.setA_pc (v : Byte) : (s.setA v).pc = s.pc := rfl
@[simp] theorem State.setA_p (v : Byte) : (s.setA v).p = s.p := rfl
@[simp] theorem State.setA_runState (v : Byte) : (s.setA v).runState = s.runState := rfl
@[simp] theorem State.setA_haltCause (v : Byte) : (s.setA v).haltCause = s.haltCause := rfl
@[simp] theorem State.setA_faultOpcode (v : Byte) : (s.setA v).faultOpcode = s.faultOpcode := rfl
@[simp] theorem State.setA_faultAddr (v : Byte) : (s.setA v).faultAddr = s.faultAddr := rfl
@[simp] theorem State.setA_mem (v : Byte) : (s.setA v).mem = s.mem := rfl

/-! ### `setX` -/

@[simp] theorem State.setX_a (v : Byte) : (s.setX v).a = s.a := rfl
@[simp] theorem State.setX_x (v : Byte) : (s.setX v).x = v := rfl
@[simp] theorem State.setX_y (v : Byte) : (s.setX v).y = s.y := rfl
@[simp] theorem State.setX_sp (v : Byte) : (s.setX v).sp = s.sp := rfl
@[simp] theorem State.setX_pc (v : Byte) : (s.setX v).pc = s.pc := rfl
@[simp] theorem State.setX_p (v : Byte) : (s.setX v).p = s.p := rfl
@[simp] theorem State.setX_runState (v : Byte) : (s.setX v).runState = s.runState := rfl
@[simp] theorem State.setX_haltCause (v : Byte) : (s.setX v).haltCause = s.haltCause := rfl
@[simp] theorem State.setX_faultOpcode (v : Byte) : (s.setX v).faultOpcode = s.faultOpcode := rfl
@[simp] theorem State.setX_faultAddr (v : Byte) : (s.setX v).faultAddr = s.faultAddr := rfl
@[simp] theorem State.setX_mem (v : Byte) : (s.setX v).mem = s.mem := rfl

/-! ### `setPC` -/

@[simp] theorem State.setPC_a (v : Word) : (s.setPC v).a = s.a := rfl
@[simp] theorem State.setPC_x (v : Word) : (s.setPC v).x = s.x := rfl
@[simp] theorem State.setPC_y (v : Word) : (s.setPC v).y = s.y := rfl
@[simp] theorem State.setPC_sp (v : Word) : (s.setPC v).sp = s.sp := rfl
@[simp] theorem State.setPC_pc (v : Word) : (s.setPC v).pc = v := rfl
@[simp] theorem State.setPC_p (v : Word) : (s.setPC v).p = s.p := rfl
@[simp] theorem State.setPC_runState (v : Word) : (s.setPC v).runState = s.runState := rfl
@[simp] theorem State.setPC_haltCause (v : Word) : (s.setPC v).haltCause = s.haltCause := rfl
@[simp] theorem State.setPC_faultOpcode (v : Word) : (s.setPC v).faultOpcode = s.faultOpcode := rfl
@[simp] theorem State.setPC_faultAddr (v : Word) : (s.setPC v).faultAddr = s.faultAddr := rfl
@[simp] theorem State.setPC_mem (v : Word) : (s.setPC v).mem = s.mem := rfl

/-! ### `setP` -/

@[simp] theorem State.setP_a (v : Byte) : (s.setP v).a = s.a := rfl
@[simp] theorem State.setP_x (v : Byte) : (s.setP v).x = s.x := rfl
@[simp] theorem State.setP_y (v : Byte) : (s.setP v).y = s.y := rfl
@[simp] theorem State.setP_sp (v : Byte) : (s.setP v).sp = s.sp := rfl
@[simp] theorem State.setP_pc (v : Byte) : (s.setP v).pc = s.pc := rfl
@[simp] theorem State.setP_p (v : Byte) : (s.setP v).p = v := rfl
@[simp] theorem State.setP_runState (v : Byte) : (s.setP v).runState = s.runState := rfl
@[simp] theorem State.setP_haltCause (v : Byte) : (s.setP v).haltCause = s.haltCause := rfl
@[simp] theorem State.setP_faultOpcode (v : Byte) : (s.setP v).faultOpcode = s.faultOpcode := rfl
@[simp] theorem State.setP_faultAddr (v : Byte) : (s.setP v).faultAddr = s.faultAddr := rfl
@[simp] theorem State.setP_mem (v : Byte) : (s.setP v).mem = s.mem := rfl

/-! ### `setRunState` -/

@[simp] theorem State.setRunState_a (r : RunState) : (s.setRunState r).a = s.a := rfl
@[simp] theorem State.setRunState_x (r : RunState) : (s.setRunState r).x = s.x := rfl
@[simp] theorem State.setRunState_y (r : RunState) : (s.setRunState r).y = s.y := rfl
@[simp] theorem State.setRunState_sp (r : RunState) : (s.setRunState r).sp = s.sp := rfl
@[simp] theorem State.setRunState_pc (r : RunState) : (s.setRunState r).pc = s.pc := rfl
@[simp] theorem State.setRunState_p (r : RunState) : (s.setRunState r).p = s.p := rfl
@[simp] theorem State.setRunState_runState (r : RunState) : (s.setRunState r).runState = r := rfl
@[simp] theorem State.setRunState_haltCause (r : RunState) : (s.setRunState r).haltCause = s.haltCause := rfl
@[simp] theorem State.setRunState_faultOpcode (r : RunState) : (s.setRunState r).faultOpcode = s.faultOpcode := rfl
@[simp] theorem State.setRunState_faultAddr (r : RunState) : (s.setRunState r).faultAddr = s.faultAddr := rfl
@[simp] theorem State.setRunState_mem (r : RunState) : (s.setRunState r).mem = s.mem := rfl

/-! ### `setMem` -/

@[simp] theorem State.setMem_a (m : Memory) : (s.setMem m).a = s.a := rfl
@[simp] theorem State.setMem_x (m : Memory) : (s.setMem m).x = s.x := rfl
@[simp] theorem State.setMem_y (m : Memory) : (s.setMem m).y = s.y := rfl
@[simp] theorem State.setMem_sp (m : Memory) : (s.setMem m).sp = s.sp := rfl
@[simp] theorem State.setMem_pc (m : Memory) : (s.setMem m).pc = s.pc := rfl
@[simp] theorem State.setMem_p (m : Memory) : (s.setMem m).p = s.p := rfl
@[simp] theorem State.setMem_runState (m : Memory) : (s.setMem m).runState = s.runState := rfl
@[simp] theorem State.setMem_haltCause (m : Memory) : (s.setMem m).haltCause = s.haltCause := rfl
@[simp] theorem State.setMem_faultOpcode (m : Memory) : (s.setMem m).faultOpcode = s.faultOpcode := rfl
@[simp] theorem State.setMem_faultAddr (m : Memory) : (s.setMem m).faultAddr = s.faultAddr := rfl
@[simp] theorem State.setMem_mem (m : Memory) : (s.setMem m).mem = m := rfl

/-! ### `setZN` -/

@[simp] theorem State.setZN_a (v : Byte) : (s.setZN v).a = s.a := rfl
@[simp] theorem State.setZN_x (v : Byte) : (s.setZN v).x = s.x := rfl
@[simp] theorem State.setZN_y (v : Byte) : (s.setZN v).y = s.y := rfl
@[simp] theorem State.setZN_sp (v : Byte) : (s.setZN v).sp = s.sp := rfl
@[simp] theorem State.setZN_pc (v : Byte) : (s.setZN v).pc = s.pc := rfl
@[simp] theorem State.setZN_p (v : Byte) : (s.setZN v).p = flagsZN s.p v := rfl
@[simp] theorem State.setZN_runState (v : Byte) : (s.setZN v).runState = s.runState := rfl
@[simp] theorem State.setZN_haltCause (v : Byte) : (s.setZN v).haltCause = s.haltCause := rfl
@[simp] theorem State.setZN_faultOpcode (v : Byte) : (s.setZN v).faultOpcode = s.faultOpcode := rfl
@[simp] theorem State.setZN_faultAddr (v : Byte) : (s.setZN v).faultAddr = s.faultAddr := rfl
@[simp] theorem State.setZN_mem (v : Byte) : (s.setZN v).mem = s.mem := rfl

/-! ### `haltBreak` -/

@[simp] theorem State.haltBreak_a : (s.haltBreak).a = s.a := rfl
@[simp] theorem State.haltBreak_x : (s.haltBreak).x = s.x := rfl
@[simp] theorem State.haltBreak_y : (s.haltBreak).y = s.y := rfl
@[simp] theorem State.haltBreak_sp : (s.haltBreak).sp = s.sp := rfl
@[simp] theorem State.haltBreak_pc : (s.haltBreak).pc = s.pc := rfl
@[simp] theorem State.haltBreak_p : (s.haltBreak).p = s.p := rfl
@[simp] theorem State.haltBreak_runState : (s.haltBreak).runState = .halted := rfl
@[simp] theorem State.haltBreak_haltCause : (s.haltBreak).haltCause = .breakHalt := rfl
@[simp] theorem State.haltBreak_faultOpcode : (s.haltBreak).faultOpcode = s.faultOpcode := rfl
@[simp] theorem State.haltBreak_faultAddr : (s.haltBreak).faultAddr = s.faultAddr := rfl
@[simp] theorem State.haltBreak_mem : (s.haltBreak).mem = s.mem := rfl

/-! ### `raiseUnimplementedOpcode` -/

@[simp] theorem State.raiseUnimplementedOpcode_a (b : Byte) (a0 : Word) : (s.raiseUnimplementedOpcode b a0).a = s.a := rfl
@[simp] theorem State.raiseUnimplementedOpcode_x (b : Byte) (a0 : Word) : (s.raiseUnimplementedOpcode b a0).x = s.x := rfl
@[simp] theorem State.raiseUnimplementedOpcode_y (b : Byte) (a0 : Word) : (s.raiseUnimplementedOpcode b a0).y = s.y := rfl
@[simp] theorem State.raiseUnimplementedOpcode_sp (b : Byte) (a0 : Word) : (s.raiseUnimplementedOpcode b a0).sp = s.sp := rfl
@[simp] theorem State.raiseUnimplementedOpcode_pc (b : Byte) (a0 : Word) : (s.raiseUnimplementedOpcode b a0).pc = s.pc := rfl
@[simp] theorem State.raiseUnimplementedOpcode_p (b : Byte) (a0 : Word) : (s.raiseUnimplementedOpcode b a0).p = s.p := rfl
@[simp] theorem State.raiseUnimplementedOpcode_runState (b : Byte) (a0 : Word) : (s.raiseUnimplementedOpcode b a0).runState = .halted := rfl
@[simp] theorem State.raiseUnimplementedOpcode_haltCause (b : Byte) (a0 : Word) : (s.raiseUnimplementedOpcode b a0).haltCause = .unimplementedOpcode := rfl
@[simp] theorem State.raiseUnimplementedOpcode_faultOpcode (b : Byte) (a0 : Word) : (s.raiseUnimplementedOpcode b a0).faultOpcode = b := rfl
@[simp] theorem State.raiseUnimplementedOpcode_faultAddr (b : Byte) (a0 : Word) : (s.raiseUnimplementedOpcode b a0).faultAddr = a0 := rfl
@[simp] theorem State.raiseUnimplementedOpcode_mem (b : Byte) (a0 : Word) : (s.raiseUnimplementedOpcode b a0).mem = s.mem := rfl

/-! ### `afterReset` -/

@[simp] theorem State.afterReset_a : (s.afterReset).a = 0x00#8 := rfl
@[simp] theorem State.afterReset_x : (s.afterReset).x = 0x00#8 := rfl
@[simp] theorem State.afterReset_y : (s.afterReset).y = 0x00#8 := rfl
@[simp] theorem State.afterReset_sp : (s.afterReset).sp = 0x00#8 := rfl
@[simp] theorem State.afterReset_pc : (s.afterReset).pc = s.mem.read16 Config.resetVector := rfl
@[simp] theorem State.afterReset_p : (s.afterReset).p = 0x00#8 := rfl
@[simp] theorem State.afterReset_runState : (s.afterReset).runState = .halted := rfl
@[simp] theorem State.afterReset_haltCause : (s.afterReset).haltCause = .none := rfl
@[simp] theorem State.afterReset_faultOpcode : (s.afterReset).faultOpcode = 0x00#8 := rfl
@[simp] theorem State.afterReset_faultAddr : (s.afterReset).faultAddr = 0x0000#16 := rfl
@[simp] theorem State.afterReset_mem : (s.afterReset).mem = s.mem := rfl

/-! ### `construct` -/

@[simp] theorem State.construct_a (memInit : Word → Byte) : (State.construct memInit).a = 0x00#8 := rfl
@[simp] theorem State.construct_x (memInit : Word → Byte) : (State.construct memInit).x = 0x00#8 := rfl
@[simp] theorem State.construct_y (memInit : Word → Byte) : (State.construct memInit).y = 0x00#8 := rfl
@[simp] theorem State.construct_sp (memInit : Word → Byte) : (State.construct memInit).sp = 0x00#8 := rfl
@[simp] theorem State.construct_pc (memInit : Word → Byte) : (State.construct memInit).pc = 0x0000#16 := rfl
@[simp] theorem State.construct_p (memInit : Word → Byte) : (State.construct memInit).p = 0x00#8 := rfl
@[simp] theorem State.construct_runState (memInit : Word → Byte) : (State.construct memInit).runState = .halted := rfl
@[simp] theorem State.construct_haltCause (memInit : Word → Byte) : (State.construct memInit).haltCause = .none := rfl
@[simp] theorem State.construct_faultOpcode (memInit : Word → Byte) : (State.construct memInit).faultOpcode = 0x00#8 := rfl
@[simp] theorem State.construct_faultAddr (memInit : Word → Byte) : (State.construct memInit).faultAddr = 0x0000#16 := rfl
@[simp] theorem State.construct_mem (memInit : Word → Byte) : (State.construct memInit).mem = Memory.ofFn memInit := rfl

end Sys2Proof.Machine
end

