-- ==== Sys2Proof/Laws/Flags.lean ====
section
/-! SUPPORT. The Flag Evaluator, bit by bit. -/

namespace Sys2Proof.Machine

/-- `setFlag` writes one bit and keeps the others. -/
theorem getLsbD_setFlag (p : Byte) (bit i : Nat) (on : Bool) (hi : i < 8) :
    (setFlag p bit on).getLsbD i = if i = bit then on else p.getLsbD i := by
  unfold setFlag
  by_cases h : i = bit
  · subst h
    cases on <;> simp [hi]
  · rcases Nat.lt_or_gt_of_ne h with h1 | h1
    · cases on <;> simp [hi, h, h1]
    · have : i - bit ≠ 0 := by omega
      cases on <;> simp [hi, h, this]

/-- `SetZN(v)` writes bit 7 from `v[7]`, bit 1 from `v == 0`, and no other bit (rule R30). -/
theorem getLsbD_flagsZN (p v : Byte) (i : Nat) (hi : i < 8) :
    (flagsZN p v).getLsbD i = if i = 7 then v.getLsbD 7 else if i = 1 then v == 0x00#8 else p.getLsbD i := by
  simp only [flagsZN, Config.zeroBit, Config.negativeBit, getLsbD_setFlag _ _ _ _ hi]

/-- The same, in the form in which simp writes a bit. -/
theorem getElem_flagsZN (p v : Byte) (i : Nat) (hi : i < 8) :
    (flagsZN p v)[i] = if i = 7 then v[7] else if i = 1 then v == 0x00#8 else p[i] :=
  getLsbD_flagsZN p v i hi

end Sys2Proof.Machine
end

