-- ==== Sys2Proof/Laws/Memory.lean ====
section
/-! SUPPORT. The laws of memory: what a read gives after a write, for every list of cells, and that every operation that
makes a memory keeps the canonical form. -/

namespace Sys2Proof.Machine.Memory

/-! ### Reads after writes -/

theorem find_erase_self (m : Memory) (n : Nat) : find (erase m n) n = none := by
  induction m with
  | nil => rfl
  | cons c m ih =>
    by_cases h : c.1 = n
    · simpa [erase, h] using ih
    · simpa [erase, h, find] using ih

theorem find_erase_ne (m : Memory) {n k : Nat} (h : k ≠ n) : find (erase m n) k = find m k := by
  induction m with
  | nil => rfl
  | cons c m ih =>
    by_cases hc : c.1 = n
    · have hk : c.1 ≠ k := fun e => h (e.symm.trans hc)
      rw [find, if_neg hk, ← ih]
      simp [erase, hc]
    · have hcons : erase (c :: m) n = c :: erase m n := by simp [erase, hc]
      rw [hcons, find, find, ih]

theorem find_insert_self (m : Memory) (n : Nat) (v : Byte) (h : find m n = none) :
    find (insert n v m) n = some v := by
  induction m with
  | nil => simp [insert, find]
  | cons c m ih =>
    by_cases hc : c.1 = n
    · simp [find, hc] at h
    · rw [find, if_neg hc] at h
      by_cases hlt : n < c.1
      · simp [insert, hlt, find]
      · simp [insert, hlt, find, hc, ih h]

theorem find_insert_ne (m : Memory) {n k : Nat} (v : Byte) (h : k ≠ n) :
    find (insert n v m) k = find m k := by
  induction m with
  | nil => simp [insert, find, h.symm]
  | cons c m ih =>
    by_cases hlt : n < c.1
    · simp [insert, hlt, find, h.symm]
    · simp only [insert, hlt, if_false, find, ih]

/-- A read after `write8` gives the byte written, at every other address what it gave before (rules R41, R42). -/
theorem read8_write8 (m : Memory) (a b : Word) (v : Byte) :
    (m.write8 a v).read8 b = if b = a then v else m.read8 b := by
  unfold read8 write8
  by_cases hb : b = a
  · subst hb
    by_cases hv : v = Config.unlistedByte
    · simp [hv, find_erase_self]
    · simp [hv, find_insert_self _ _ _ (find_erase_self m b.toNat)]
  · have hn : b.toNat ≠ a.toNat := fun e => hb (BitVec.eq_of_toNat_eq e)
    by_cases hv : v = Config.unlistedByte
    · simp [hv, hb, find_erase_ne m hn]
    · simp [hv, hb, find_insert_ne _ v hn, find_erase_ne m hn]

theorem find_append (m n : Memory) (k : Nat) : find (m ++ n) k = (find m k).or (find n k) := by
  induction m with
  | nil => rfl
  | cons c m ih => by_cases h : c.1 = k <;> simp [find, h, ih]

theorem getD_find_listBelow (f : Word → Byte) (k n : Nat) :
    (find (listBelow f k) n).getD Config.unlistedByte =
      if n < k then f (BitVec.ofNat 16 n) else Config.unlistedByte := by
  have hnone : ∀ k, k ≤ n → find (listBelow f k) n = none := by
    intro k hk
    induction k with
    | zero => rfl
    | succ k ih =>
      rw [listBelow, List.range_succ, List.filterMap_append, ← listBelow, find_append, ih (by omega)]
      by_cases h : f (BitVec.ofNat 16 k) = Config.unlistedByte
      · simp [h, find]
      · simp [h, find]
        omega
  induction k with
  | zero => simp [listBelow, find]
  | succ k ih =>
    rw [listBelow, List.range_succ, List.filterMap_append, ← listBelow, find_append]
    rcases Nat.lt_trichotomy n k with h | h | h
    · have hne : k ≠ n := by omega
      rw [if_pos h] at ih
      rw [if_pos (by omega), ← ih]
      by_cases hf : f (BitVec.ofNat 16 k) = Config.unlistedByte <;> simp [hf, find, hne]
    · subst h
      rw [hnone n (Nat.le_refl n)]
      by_cases hf : f (BitVec.ofNat 16 n) = Config.unlistedByte <;> simp [hf, find]
    · have hne : k ≠ n := by omega
      rw [hnone k (by omega), if_neg (by omega)]
      by_cases hf : f (BitVec.ofNat 16 k) = Config.unlistedByte <;> simp [hf, find, hne]

/-- The memory made from a `MEM_INIT` reads as that `MEM_INIT` (rules R6, R41). -/
theorem read8_ofFn (f : Word → Byte) (a : Word) : (ofFn f).read8 a = f a := by
  unfold ofFn read8
  rw [getD_find_listBelow, if_pos (show a.toNat < Config.addressSpaceSize from a.isLt), BitVec.ofNat_toNat,
    BitVec.setWidth_eq]

/-! ### The canonical form -/

theorem wf_iff (m : Memory) :
    m.wf = true ↔ m.Pairwise (fun c d => c.1 < d.1) ∧
      ∀ c ∈ m, c.1 < Config.addressSpaceSize ∧ c.2 ≠ Config.unlistedByte := by
  simp only [wf, Bool.and_eq_true, decide_eq_true_eq, List.all_eq_true, bne_iff_ne]

theorem wf_nil : wf [] = true := by decide

theorem wf_erase {m : Memory} (n : Nat) (h : m.wf = true) : (erase m n).wf = true := by
  rw [wf_iff] at h ⊢
  exact ⟨h.1.filter _, fun c hc => h.2 c (List.mem_of_mem_filter hc)⟩

theorem mem_insert {m : Memory} {n : Nat} {v : Byte} {c : Host.Cell} (h : c ∈ insert n v m) :
    c = (n, v) ∨ c ∈ m := by
  induction m with
  | nil => simpa [insert] using h
  | cons d m ih =>
    unfold insert at h
    split at h
    · simpa using h
    · rcases List.mem_cons.mp h with rfl | h
      · simp
      · rcases ih h with h | h <;> simp [h]

theorem pairwise_insert {m : Memory} {n : Nat} (v : Byte) (h : m.Pairwise (fun c d => c.1 < d.1))
    (hn : ∀ c ∈ m, c.1 ≠ n) : (insert n v m).Pairwise (fun c d => c.1 < d.1) := by
  induction m with
  | nil => simp [insert]
  | cons d m ih =>
    obtain ⟨hd, hm⟩ := List.pairwise_cons.mp h
    unfold insert
    split
    · rename_i hlt
      refine List.pairwise_cons.mpr ⟨fun c hc => ?_, h⟩
      rcases List.mem_cons.mp hc with rfl | hc
      · exact hlt
      · exact Nat.lt_trans hlt (hd c hc)
    · rename_i hge
      have hdn : d.1 ≠ n := hn d List.mem_cons_self
      refine List.pairwise_cons.mpr ⟨fun c hc => ?_, ih hm fun c hc => hn c (List.mem_cons_of_mem _ hc)⟩
      rcases mem_insert hc with rfl | hc
      · show d.1 < n
        omega
      · exact hd c hc

/-- `write8` keeps the canonical form. -/
theorem wf_write8 {m : Memory} (a : Word) (v : Byte) (h : m.wf = true) : (m.write8 a v).wf = true := by
  unfold write8
  split
  · exact wf_erase _ h
  · rename_i hv
    have he := (wf_iff _).mp (wf_erase a.toNat h)
    refine (wf_iff _).mpr ⟨pairwise_insert v he.1 fun c hc => ?_, fun c hc => ?_⟩
    · simpa using List.of_mem_filter hc
    · rcases mem_insert hc with rfl | hc
      · exact ⟨a.isLt, hv⟩
      · exact he.2 c hc

/-- `write16` keeps the canonical form. -/
theorem wf_write16 {m : Memory} (a v : Word) (h : m.wf = true) : (m.write16 a v).wf = true :=
  wf_write8 _ _ (wf_write8 _ _ h)

/-- Copying an image keeps the canonical form. -/
theorem wf_copy {m : Memory} (a : Word) (bytes : List Byte) (h : m.wf = true) : (m.copy a bytes).wf = true := by
  induction bytes generalizing m a with
  | nil => exact h
  | cons b bytes ih => exact ih (a + 1) (wf_write8 a b h)

/-- `load` keeps the canonical form. -/
theorem wf_loadedMemory {m : Memory} (img : ProgramImage) (h : m.wf = true) : (loadedMemory img m).wf = true :=
  wf_write16 _ _ (wf_copy _ _ h)

theorem wf_listBelow (f : Word → Byte) {k : Nat} (hk : k ≤ Config.addressSpaceSize) : (listBelow f k).wf = true := by
  refine (wf_iff _).mpr ⟨List.pairwise_filterMap.mpr ?_, fun c hc => ?_⟩
  · refine List.pairwise_lt_range.imp fun {i j} hij c hc d hd => ?_
    split at hc <;> simp_all
    simp [← hc, ← hd.2, hij]
  · obtain ⟨n, hn, hc⟩ := List.mem_filterMap.mp hc
    split at hc
    · simp at hc
    · rename_i hv
      obtain rfl := Option.some.inj hc
      exact ⟨Nat.lt_of_lt_of_le (List.mem_range.mp hn) hk, hv⟩

/-- Construction makes a canonical memory, whatever `MEM_INIT` is. -/
theorem wf_ofFn (f : Word → Byte) : (ofFn f).wf = true := by
  unfold ofFn
  exact wf_listBelow f (Nat.le_refl _)

end Sys2Proof.Machine.Memory
end

