-- ==== Sys2Proof/Laws/PerInstr.lean ====
section
/-! SUPPORT. A property of every instruction as data, one lemma for each constructor: the encoding has the length the
opcode table gives, and its first byte alone tells that length (spec/30_encoding.md rule R71). -/

namespace Sys2Proof.Laws.EncodedLength

/-- The encoding is as long as the table says, and starts with the byte the table gives the instruction's row. -/
def Statement (i : Instr) : Prop :=
  (encode i).length = i.length ∧ (encode i).head? = some i.op.opcode

theorem brk : Statement .brk := ⟨rfl, rfl⟩

theorem lda (imm : Byte) : Statement (.lda imm) := ⟨rfl, rfl⟩

theorem tax : Statement .tax := ⟨rfl, rfl⟩

theorem inx : Statement .inx := ⟨rfl, rfl⟩

end Sys2Proof.Laws.EncodedLength
end

