-- ==== Sys2Proof/Laws/Step.lean ====
section
/-! SUPPORT. What each shared operation of the loop does, once: the resolver, the fetch, the execution, the step, the host
operations. Later proofs cite these and unfold none of them. -/

namespace Sys2Proof.Machine

/-- The resolver moves `PC` past the operand and writes nothing else (rule R80). -/
theorem resolve_state (mode : Mode) (s : State) :
    (resolve mode s).2 = s.setPC (s.pc + BitVec.ofNat 16 mode.operandWidth) := by
  cases mode with
  | implied => simp [resolve, Mode.operandWidth, State.setPC]
  | immediate => rfl

/-- The bytes the opcode table names, in the order of rule R67. -/
theorem decodeOpcode_eq_some {b : Byte} {op : Op} (h : decodeOpcode b = some op) : b = op.opcode := by
  unfold decodeOpcode opcodeTable at h
  obtain ⟨row, hrow, rfl⟩ := Option.map_eq_some_iff.mp h
  have hmem := List.mem_of_find?_eq_some hrow
  have hb : row.opcode = b := by simpa using List.find?_some hrow
  subst hb
  fin_cases hmem <;> rfl

theorem decodeOpcode_opcode (op : Op) : decodeOpcode op.opcode = some op := by cases op <;> decide

/-- What a fetch gives where the opcode byte is in the table. -/
theorem fetchInstr_of_some {s : State} {op : Op} (h : decodeOpcode (s.mem.read8 s.pc) = some op) :
    fetchInstr s = .instr (instrOf op (resolve op.mode (s.setPC (s.pc + 1))).1)
      (s.setPC (s.pc + 1 + BitVec.ofNat 16 op.mode.operandWidth)) := by
  simp only [fetchInstr, State.fetchByte, h, resolve_state]
  rfl

/-- What a fetch gives where the opcode byte is in no row. -/
theorem fetchInstr_of_none {s : State} (h : decodeOpcode (s.mem.read8 s.pc) = none) :
    fetchInstr s = .unimplemented (s.mem.read8 s.pc) s.pc (s.setPC (s.pc + 1)) := by
  simp only [fetchInstr, State.fetchByte, h]

/-- Everything an execution can do. -/
theorem exec_cases {i : Instr} {s t : State} (h : exec i s = .next t) :
    (i = .brk ∧ t = s.haltBreak) ∨ (∃ v, i = .lda v ∧ t = (s.setA v).setZN v) ∨
      (i = .tax ∧ t = (s.setX s.a).setZN s.a) ∨ (i = .inx ∧ t = (s.setX (s.x + 1)).setZN (s.x + 1)) := by
  cases i with
  | brk => exact .inl ⟨rfl, (Host.Outcome.next.inj h).symm⟩
  | lda v => exact .inr (.inl ⟨v, rfl, (Host.Outcome.next.inj h).symm⟩)
  | tax => exact .inr (.inr (.inl ⟨rfl, (Host.Outcome.next.inj h).symm⟩))
  | inx => exact .inr (.inr (.inr ⟨rfl, (Host.Outcome.next.inj h).symm⟩))

/-- Everything a step can do: it was Running, and either it executed the fetched instruction or the decode failed. -/
theorem step_cases {s t : State} (h : step s = .next t) :
    s.runState = .running ∧
      ((∃ op, decodeOpcode (s.mem.read8 s.pc) = some op ∧
          exec (instrOf op (resolve op.mode (s.setPC (s.pc + 1))).1)
            (s.setPC (s.pc + 1 + BitVec.ofNat 16 op.mode.operandWidth)) = .next t) ∨
        (decodeOpcode (s.mem.read8 s.pc) = none ∧
          t = (s.setPC (s.pc + 1)).raiseUnimplementedOpcode (s.mem.read8 s.pc) s.pc)) := by
  unfold step at h
  split at h
  · rename_i hr
    refine ⟨hr, ?_⟩
    unfold stepRunning at h
    cases hd : decodeOpcode (s.mem.read8 s.pc) with
    | some op => rw [fetchInstr_of_some hd] at h; exact .inl ⟨op, rfl, h⟩
    | none => rw [fetchInstr_of_none hd] at h; exact .inr ⟨rfl, (Host.Outcome.next.inj h).symm⟩
  · simp at h

/-- An action that only a Halted loop admits answered: the loop was Halted. -/
theorem whenHalted_next {τ : Type} {s : State} {o : Host.Outcome τ Fault Refusal} {r : τ} :
    whenHalted s o = .next r ↔ s.runState = .halted ∧ o = .next r := by
  unfold whenHalted
  cases h : s.runState <;> simp

/-- A sequence answered: both parts did. -/
theorem andThen_next {σ τ : Type} {o : Host.Outcome σ Fault Refusal} {k : σ → Host.Outcome τ Fault Refusal} {r : τ} :
    andThen o k = .next r ↔ ∃ s, o = .next s ∧ k s = .next r := by
  cases o <;> simp [andThen]

/-- Everything the entry of a run can do (rules R101, R141). -/
theorem startRun_cases {s t : State} (h : startRun s = .next t) :
    s.runState = .halted ∧ s.haltCause = .none ∧ t = s.setRunState .running := by
  obtain ⟨hh, h⟩ := whenHalted_next.mp h
  cases hc : s.haltCause <;> simp_all

/-- Everything a host operation can do to the state. -/
theorem hostOp_cases {op : HostOp} {s t : State} (h : hostOp op s = .next t) :
    s.runState = .halted ∧
      ((op = .reset ∧ t = s.afterReset) ∨
        (∃ img, op = .load img ∧ img.wellFormed = true ∧ t = s.setMem (loadedMemory img s.mem)) ∨
        (∃ img, op = .load img ∧ img.wellFormed = false ∧ t = s) ∨
        (op = .startRun ∧ s.haltCause = .none ∧ t = s.setRunState .running)) := by
  cases op with
  | reset =>
    obtain ⟨hh, h⟩ := whenHalted_next.mp h
    exact ⟨hh, .inl ⟨rfl, (Host.Outcome.next.inj h).symm⟩⟩
  | load img =>
    obtain ⟨⟨u, st⟩, hl, h⟩ := andThen_next.mp h
    obtain ⟨hh, hl⟩ := whenHalted_next.mp hl
    refine ⟨hh, .inr ?_⟩
    cases hw : img.wellFormed <;> simp_all
  | startRun =>
    obtain ⟨hh, hc, rfl⟩ := startRun_cases h
    exact ⟨hh, .inr (.inr (.inr ⟨rfl, hc, rfl⟩))⟩

/-- Everything a host write of one byte can do (rule R144). -/
theorem hostWrite8_cases {a : Word} {v : Byte} {s t : State} (h : hostWrite8 a v s = .next t) :
    s.runState = .halted ∧ t = s.setMem (s.mem.write8 a v) := by
  obtain ⟨hh, h⟩ := whenHalted_next.mp h
  exact ⟨hh, (Host.Outcome.next.inj h).symm⟩

/-- Everything a sequence of host memory accesses does in Halted: memory as the transactions leave it (rule R144). -/
theorem hostAccesses_of_halted (ts : List Transaction) {s : State} (hh : s.runState = .halted) :
    hostAccesses ts s = .next (s.setMem (ts.foldl Memory.perform s.mem)) := by
  induction ts generalizing s with
  | nil => rfl
  | cons t ts ih =>
    have h : hostAccess t s = .next (s.setMem (s.mem.perform t)) := by
      unfold hostAccess Memory.perform hostWrite8 whenHalted
      rw [hh]
      cases t.we <;> rfl
    rw [hostAccesses, h]
    exact ih hh

/-- A host operation that is no `load` keeps memory (rules R34, R38). -/
theorem hostOp_mem {op : HostOp} {s t : State} (h : hostOp op s = .next t) (hop : ∀ img, op ≠ .load img) :
    t.mem = s.mem := by
  obtain ⟨-, ⟨-, rfl⟩ | ⟨img, rfl, -⟩ | ⟨img, rfl, -⟩ | ⟨-, -, rfl⟩⟩ := hostOp_cases h
  · rfl
  · exact absurd rfl (hop img)
  · exact absurd rfl (hop img)
  · rfl

end Sys2Proof.Machine
end

