-- ==== Sys2Proof/Laws/Run.lean ====
section
/-! SUPPORT. The iterated step is the host's own run of the machine. -/

namespace Sys2Proof.Machine

theorem core_run_succ (k : Nat) (s : State) :
    Sys2Proof.core.run (k + 1) s = andThen (step s) (Sys2Proof.core.run k) := by
  refine (Host.Core.run.eq_2 Sys2Proof.core s k).trans ?_
  have hs : Sys2Proof.core.step s = step s := rfl
  generalize Sys2Proof.core.step s = o at hs ⊢
  rw [← hs]
  cases o <;> rfl

theorem stepN_eq_core_run (k : Nat) (s : State) : stepN k s = Sys2Proof.core.run k s := by
  induction k generalizing s with
  | zero => rfl
  | succ k ih => exact (congrArg (andThen (step s)) (funext ih)).trans (core_run_succ k s).symm

end Sys2Proof.Machine
end

