-- ==== Sys2Proof/Tests/Slice0.lean ====
section
/-! SUPPORT. The model's own tests: expected results from spec/95_test_vectors.md (the vector is named at each test) or, where
said so, from the encoding tables of spec/30_encoding.md; and for each statement with hypotheses a concrete state that meets
them. -/

namespace Sys2Proof.Tests

open Sys2Proof Sys2Proof.Machine

/-- A Running state with bytes at an address and `PC` there; everything else as reset leaves it. -/
def running (origin : Word) (bytes : List Byte) : State :=
  { State.reset with runState := .running, pc := origin, mem := Memory.copy [] origin bytes }

/-- The next state, where there is one. -/
def next {σ : Type} (o : Host.Outcome σ Fault Refusal) : Option σ :=
  match o with
  | .next s    => some s
  | .fault _   => none
  | .refused _ => none

/-- The refusal, where there is one. -/
def refusal {σ : Type} (o : Host.Outcome σ Fault Refusal) : Option Refusal :=
  match o with
  | .next _    => none
  | .fault _   => none
  | .refused r => some r

/-- The fault, where there is one. -/
def fault {σ : Type} (o : Host.Outcome σ Fault Refusal) : Option Fault :=
  match o with
  | .next _    => none
  | .fault r   => some r
  | .refused _ => none

/-! ### Well-formedness: each check refuses an ill-formed term

`Instr.wellFormed` refuses no term: the type of the operand has exactly the 8 bits of the encoding. -/

/-- H3: `FFFD + 4` passes 0x10000. -/
theorem test_image_past_the_top_refused :
    ProgramImage.wellFormed ⟨[0x01#8, 0x02#8, 0x03#8, 0x04#8], 0xFFFD#16⟩ = false := by decide

/-- H4: `FFFD + 3` is 0x10000 exactly. -/
theorem test_image_to_the_top_accepted : ProgramImage.wellFormed ⟨[0x01#8, 0x02#8, 0x03#8], 0xFFFD#16⟩ = true := by
  decide

theorem test_every_instruction_well_formed (i : Instr) : i.wellFormed = true := by cases i <;> rfl

theorem test_memory_out_of_order_refused : Memory.wf [(2, 0x05#8), (1, 0x05#8)] = false := by decide

theorem test_memory_address_twice_refused : Memory.wf [(2, 0x05#8), (2, 0x06#8)] = false := by decide

theorem test_memory_lists_unlisted_byte_refused : Memory.wf [(2, 0x00#8)] = false := by decide

theorem test_memory_past_the_top_refused : Memory.wf [(65536, 0x05#8)] = false := by decide

/-! ### Decoding: words written out from rule R67 -/

theorem test_decode_brk : decodeTableWord 8 0b00000000 = some .brk := by decide

theorem test_decode_lda : decodeTableWord 16 0b1000000110101001 = some (.lda 0x81#8) := by decide

theorem test_decode_lda_operand_zero : decodeTableWord 8 0b10101001 = some (.lda 0x00#8) := by decide

theorem test_decode_tax : decodeTableWord 8 0b10101010 = some .tax := by decide

theorem test_decode_inx : decodeTableWord 8 0b11101000 = some .inx := by decide

/-- X1 to X8: each neighbour of an accepted byte is refused by name. -/
theorem test_decode_refuses_neighbours :
    ∀ b ∈ [0x01#8, 0xA8#8, 0xAB#8, 0xE7#8, 0xE9#8, 0xEA#8, 0xA5#8, 0xFF#8],
      decode [b, 0x00#8] = .error (.unimplementedOpcode b) := by decide

/-- The bytes of rule R75's syntax table. -/
theorem test_encode : [encode (.lda 0x05#8), encode .tax, encode .inx, encode .brk] =
    [[0xA9#8, 0x05#8], [0xAA#8], [0xE8#8], [0x00#8]] := by decide

/-- Rule R75. -/
theorem test_assembly : (Instr.lda 0xFA#8).assembly = "LDA #$FA" := by decide

/-! ### One step of each instruction -/

/-- L7: the six unnamed flag bits are preserved. -/
theorem test_lda_keeps_unnamed_bits :
    (next (step { running 0x8000#16 [0xA9#8, 0x00#8] with a := 0x11#8, p := 0x7D#8 })).map (fun t => (t.a, t.p, t.pc)) =
      some (0x00#8, 0x7F#8, 0x8002#16) := by decide

/-- L9: the opcode at 0xFFFF, its operand at 0x0000. -/
theorem test_lda_across_the_top :
    (next (step (running 0xFFFF#16 [0xA9#8, 0x42#8]))).map (fun t => (t.a, t.p, t.pc)) =
      some (0x42#8, 0x00#8, 0x0001#16) := by decide

/-- T3: `X` and the flags come from `A`, not from the old `X`. -/
theorem test_tax_old_x_irrelevant :
    (next (step { running 0x8000#16 [0xAA#8] with a := 0x01#8, x := 0xFF#8, p := 0x80#8 })).map
      (fun t => (t.a, t.x, t.p, t.pc)) = some (0x01#8, 0x01#8, 0x00#8, 0x8001#16) := by decide

/-- T7. -/
theorem test_tax_keeps_unnamed_bits :
    (next (step { running 0x8000#16 [0xAA#8] with a := 0x80#8, p := 0x7D#8 })).map (fun t => (t.x, t.p)) =
      some (0x80#8, 0xFD#8) := by decide

/-- I3: crossing into bit 7. -/
theorem test_inx_into_bit_7 :
    (next (step { running 0x8000#16 [0xE8#8] with x := 0x7F#8 })).map (fun t => (t.a, t.x, t.p, t.pc)) =
      some (0x00#8, 0x80#8, 0x80#8, 0x8001#16) := by decide

/-- I7: the wrap, with the unnamed bits set. -/
theorem test_inx_wraps :
    (next (step { running 0x8000#16 [0xE8#8] with x := 0xFF#8, p := 0xFD#8 })).map (fun t => (t.x, t.p)) =
      some (0x00#8, 0x7F#8) := by decide

/-- B4: the opcode at 0xFFFF. -/
theorem test_brk_at_the_top :
    next (step { running 0xFFFF#16 [0x00#8] with a := 0x12#8, x := 0x34#8, p := 0x02#8 }) =
      some { State.reset with
        a := 0x12#8, x := 0x34#8, p := 0x02#8, pc := 0x0000#16, runState := .halted, haltCause := .breakHalt } := by
  decide

/-- B5: no flag bit changes, whatever `P` holds. -/
theorem test_brk_writes_no_flag :
    (next (step { running 0x8002#16 [0x00#8] with p := 0xFF#8 })).map (fun t => (t.p, t.sp, t.pc)) =
      some (0xFF#8, 0x00#8, 0x8003#16) := by decide

/-- X9: a byte in no row of the table, at 0xFFFF. -/
theorem test_unimplemented_at_the_top :
    (next (step { running 0xFFFF#16 [0x02#8] with a := 0x12#8, x := 0x34#8, p := 0x80#8 })).map
      (fun t => ((t.a, t.x, t.p, t.pc), (t.runState, t.haltCause), t.faultOpcode, t.faultAddr)) =
      some ((0x12#8, 0x34#8, 0x80#8, 0x0000#16), (.halted, .unimplementedOpcode), 0x02#8, 0xFFFF#16) := by decide

/-- Rule R105: the reset state is Halted and takes no step. -/
theorem test_no_step_at_reset : fault (step State.reset) = some .halted := by decide

/-- Log entry 4: the very next step after the placing runs the placed instruction, from reset. -/
theorem test_placed_word_runs :
    (next (step (State.reset.withFetchWord 16 0x80A9))).map (fun t => (t.a, t.p, t.pc)) =
      some (0x80#8, 0x80#8, 0x0002#16) := by decide

/-! ### Flags and memory -/

/-- F1 to F10. -/
theorem test_setZN :
    [flagsZN 0x00#8 0x00#8, flagsZN 0x80#8 0x00#8, flagsZN 0x02#8 0x01#8, flagsZN 0x80#8 0x7F#8, flagsZN 0x02#8 0x80#8,
      flagsZN 0x00#8 0xFF#8, flagsZN 0xFF#8 0x00#8, flagsZN 0xFF#8 0x05#8, flagsZN 0x7D#8 0x80#8, flagsZN 0x7D#8 0x00#8] =
    [0x02#8, 0x02#8, 0x00#8, 0x00#8, 0x80#8, 0x80#8, 0x7F#8, 0x7D#8, 0xFD#8, 0x7F#8] := by decide

/-- M3: no wrap within a page. -/
theorem test_read16_across_a_page :
    Memory.read16 [(0x00FF, 0x34#8), (0x0100, 0x12#8)] 0x00FF#16 = 0x1234#16 := by decide

/-- M5: the high byte of a word at 0xFFFF is at 0x0000. -/
theorem test_write16_at_the_top :
    Memory.write16 [] 0xFFFF#16 0xABCD#16 = [(0x0000, 0xAB#8), (0xFFFF, 0xCD#8)] := by decide

/-- Storing 0x00 takes the entry out, so that the memory is again the empty one. -/
theorem test_write_zero_unlists : Memory.write8 (Memory.write8 [] 0x0010#16 0x05#8) 0x0010#16 0x00#8 = [] := by decide

/-! ### Host operations -/

/-- RS4: `reset()` after a fatal end clears the report and takes `PC` from the vector. -/
theorem test_reset_after_fatal_end :
    next (hostReset { State.reset with
      a := 0x12#8, x := 0x34#8, p := 0x80#8, pc := 0x8001#16, haltCause := .unimplementedOpcode
      faultOpcode := 0xEA#8, faultAddr := 0x8000#16, mem := [(0xFFFD, 0x80#8)] }) =
    some { State.reset with pc := 0x8000#16, mem := [(0xFFFD, 0x80#8)] } := by decide

/-- RS5: `run()` after an ended run, without `reset()`, is refused. -/
theorem test_run_without_reset_refused :
    refusal (run 3 { State.reset with haltCause := .unimplementedOpcode }) = some .runWithoutReset := by decide

/-- H3: an overflow, nothing written. -/
theorem test_load_overflow :
    next (load ⟨[0x01#8, 0x02#8, 0x03#8, 0x04#8], 0xFFFD#16⟩ State.reset) = some (State.reset, .loadOverflow) := by decide

/-- H4: the vector wins over the image. -/
theorem test_load_over_the_vector :
    next (load ⟨[0x01#8, 0x02#8, 0x03#8], 0xFFFD#16⟩ State.reset) =
      some ({ State.reset with mem := [(0xFFFC, 0xFD#8), (0xFFFD, 0xFF#8), (0xFFFE, 0x02#8), (0xFFFF, 0x03#8)] }, .ok) := by
  decide

/-- H2: an empty image writes only the vector. -/
theorem test_load_empty_image :
    next (load ⟨[], 0x1234#16⟩ State.reset) =
      some ({ State.reset with mem := [(0xFFFC, 0x34#8), (0xFFFD, 0x12#8)] }, .ok) := by decide

/-- P7: the shortest run. -/
theorem test_shortest_run :
    next (run 1 State.reset) = some { State.reset with pc := 0x0001#16, haltCause := .breakHalt } := by decide

/-- H8: a loaded program whose first byte the vector overwrote ends fatally at once. -/
theorem test_load_and_run_over_the_vector :
    (next (loadAndRunAt 0xFFFC#16 1 [0xA9#8, 0x05#8, 0x00#8] State.reset)).map
      (fun r => (r.1.pc, r.1.returned, r.1.faultOpcode, r.1.faultAddr, r.2)) =
      some (0xFFFD#16, some .unimplementedOpcode, 0xFC#8, 0xFFFC#16, .ok) := by decide

/-- Rule R33's codes, at the end of H8. -/
theorem test_status_outputs :
    ({ State.reset with haltCause := .unimplementedOpcode, faultOpcode := 0xFC#8, faultAddr := 0xFFFC#16 }).statusOutputs =
      ⟨1#1, 0b10#2, 0xFC#8, 0xFFFC#16⟩ := by decide

/-- Rule R60: the reads of a Load-Accumulator that straddles the top of memory. -/
theorem test_step_transactions :
    stepTransactions (running 0xFFFF#16 [0xA9#8, 0x42#8]) = [⟨0xFFFF#16, false, 0xA9#8⟩, ⟨0x0000#16, false, 0x42#8⟩] := by
  decide

/-! ### Witnesses: for each statement with hypotheses, a concrete case that meets them all -/

theorem witness_DecodeRejectsByName :
    decode [] = .error .noByte ∧ decode [0xA9#8] = .error (.missingOperand .lda) ∧
      decode [0xFF#8] = .error (.unimplementedOpcode 0xFF#8) := by decide

theorem witness_LengthFromOpcodeByte :
    decode (0xA9#8 :: [0xFF#8]) = .ok (.lda 0xFF#8, []) ∧ decode (0x00#8 :: [0xFF#8]) = .ok (.brk, [0xFF#8]) := by decide

/-- A program at the top of memory: the operand of its Load-Accumulator is at 0x0000. -/
theorem witness_StepRunsDecodedInstruction :
    (running 0xFFFF#16 [0xA9#8, 0x42#8]).runState = .running ∧
      decode [(running 0xFFFF#16 [0xA9#8, 0x42#8]).mem.read8 0xFFFF#16,
        (running 0xFFFF#16 [0xA9#8, 0x42#8]).mem.read8 0x0000#16] = .ok (.lda 0x42#8, []) := by decide

theorem witness_PlacedWordRunsNext :
    decodeTableWord 16 0xFFA9 = some (.lda 0xFF#8) ∧ decodeTableWord 8 0xE8 = some .inx := by decide

theorem witness_StepLoadAccumulator :
    (running 0xFFFF#16 [0xA9#8, 0x00#8]).runState = .running ∧
      (running 0xFFFF#16 [0xA9#8, 0x00#8]).mem.read8 0xFFFF#16 = 0xA9#8 ∧
      (running 0xFFFF#16 [0xA9#8, 0x00#8]).mem.read8 (0xFFFF#16 + 1) = 0x00#8 := by decide

theorem witness_StepTransferAccumulatorToX :
    (running 0xFFFF#16 [0xAA#8]).runState = .running ∧ (running 0xFFFF#16 [0xAA#8]).mem.read8 0xFFFF#16 = 0xAA#8 := by
  decide

theorem witness_StepIncrementX :
    (running 0xFFFF#16 [0xE8#8]).runState = .running ∧ (running 0xFFFF#16 [0xE8#8]).mem.read8 0xFFFF#16 = 0xE8#8 ∧
      (0x01#8 : Byte) = BitVec.ofNat 8 (((running 0xFFFF#16 [0xE8#8]).x.toNat + 1) % 256) := by decide

theorem witness_StepBreakHalt :
    (running 0xFFFF#16 []).runState = .running ∧ (running 0xFFFF#16 []).mem.read8 0xFFFF#16 = 0x00#8 := by decide

theorem witness_TransferTwiceSameAsOnce : (next (exec .tax State.reset)).isSome = true := by decide

/-- Every instruction gives a next state at reset (also for the flag statement's cases). -/
theorem witness_ExecFrame :
    ∀ i ∈ [Instr.brk, .lda 0x80#8, .tax, .inx], (next (exec i State.reset)).isSome = true := by decide

/-- One step for each arm of the step, at the top of memory. -/
theorem witness_StepFrame :
    ∀ b ∈ [0x00#8, 0xA9#8, 0xAA#8, 0xE8#8, 0xFF#8], (next (step (running 0xFFFF#16 [b]))).isSome = true := by decide

theorem witness_FlagDiscipline :
    (next (exec (.lda 0x80#8) State.reset)).isSome = true ∧ (next (exec .tax State.reset)).isSome = true ∧
      (next (exec .inx State.reset)).isSome = true ∧ (next (exec .brk State.reset)).isSome = true ∧
      decodeOpcode ((running 0xFFFF#16 [0xFF#8]).mem.read8 0xFFFF#16) = none ∧
      (next (step (running 0xFFFF#16 [0xFF#8]))).isSome = true := by decide

theorem witness_StepUnimplementedOpcode :
    (running 0xFFFF#16 [0xFF#8]).runState = .running ∧ (running 0xFFFF#16 [0xFF#8]).mem.read8 0xFFFF#16 = 0xFF#8 ∧
      (0xFF#8 : Byte) ≠ 0x00#8 ∧ (0xFF#8 : Byte) ≠ 0xA9#8 ∧ (0xFF#8 : Byte) ≠ 0xAA#8 ∧ (0xFF#8 : Byte) ≠ 0xE8#8 := by decide

/-- The two lengths, where `PC` wraps. -/
theorem witness_ProgramCounterLaw :
    (next (step (running 0xFFFF#16 [0xA9#8]))).isSome = true ∧ (next (step (running 0xFFFF#16 [0xE8#8]))).isSome = true := by
  decide

theorem witness_StepTakenExactlyWhileRunning :
    (running 0x0000#16 []).runState = .running ∧ State.reset.runState = .halted ∧
      State.reset.haltCause ≠ .unimplementedOpcode ∧
      ({ State.reset with haltCause := .unimplementedOpcode }).runState = .halted := by decide

theorem witness_HaltsOnlyByBreakOrUnimplemented :
    (next (step (running 0x0000#16 [0x00#8]))).map State.runState = some .halted ∧
      (next (step (running 0x0000#16 [0x01#8]))).map State.runState = some .halted ∧
      (next (step (running 0x0000#16 [0xE8#8]))).map State.runState = some .running := by decide

/-- A state, the two bytes its step reads, and another memory that agrees there and differs at address 1. -/
theorem witness_StepDependsOnlyOnBytesRead :
    stepReads (running 0xFFFF#16 [0xA9#8, 0x42#8]) = [0xFFFF#16, 0x0000#16] ∧
      Memory.read8 [(0, 0x42#8), (1, 0x99#8), (65535, 0xA9#8)] 0xFFFF#16 =
        (running 0xFFFF#16 [0xA9#8, 0x42#8]).mem.read8 0xFFFF#16 ∧
      Memory.read8 [(0, 0x42#8), (1, 0x99#8), (65535, 0xA9#8)] 0x0000#16 =
        (running 0xFFFF#16 [0xA9#8, 0x42#8]).mem.read8 0x0000#16 ∧
      (next (step (running 0xFFFF#16 [0xA9#8, 0x42#8]))).isSome = true := by decide

theorem witness_StepReadsInstructionBytesOnce :
    (next (step (running 0xFFFF#16 [0xA9#8, 0x42#8]))).isSome = true ∧
      (next (step (running 0xFFFF#16 [0xFF#8]))).isSome = true := by decide

theorem running_reportInv : (running 0xFFFF#16 [0xFF#8]).ReportInv := by
  refine ⟨?_, ?_, ?_, ?_, ?_⟩ <;> decide

theorem running_registerInv : (running 0xFFFF#16 [0xFF#8]).RegisterInv := by
  refine ⟨?_, ?_, ?_, ?_⟩ <;> decide

theorem witness_StepKeepsReportInv :
    (running 0xFFFF#16 [0xFF#8]).ReportInv ∧ ∃ t, step (running 0xFFFF#16 [0xFF#8]) = .next t :=
  ⟨running_reportInv, _, rfl⟩

theorem witness_HostOpKeepsReportInv :
    State.reset.ReportInv ∧ (∃ t, hostOp (.load ⟨[0xE8#8], 0xFFFF#16⟩) State.reset = .next t) ∧
      ∃ t, hostWrite8 0xFFFF#16 0x01#8 State.reset = .next t :=
  ⟨by refine ⟨?_, ?_, ?_, ?_, ?_⟩ <;> decide, ⟨_, rfl⟩, _, rfl⟩

theorem witness_StepKeepsRegisterInv :
    (running 0xFFFF#16 [0xFF#8]).RegisterInv ∧ ∃ t, step (running 0xFFFF#16 [0xFF#8]) = .next t :=
  ⟨running_registerInv, _, rfl⟩

/-- Construction with a `MEM_INIT` that is nowhere 0x00, a `load` of the longest image at 0xFFFF, a `run()`. -/
theorem loadedAndRunning :
    ReachableFrom (fun _ => 0xE8#8) [⟨[0xAA#8], 0xFFFF#16⟩]
      (((State.construct fun _ => 0xE8#8).setMem
        (loadedMemory ⟨[0xAA#8], 0xFFFF#16⟩ (Memory.ofFn fun _ => 0xE8#8))).setRunState .running) :=
  .host .startRun (.host (.load ⟨[0xAA#8], 0xFFFF#16⟩) .construct rfl) rfl

/-- A state that construction with a `MEM_INIT` that is nowhere 0x00, a `load` and a `run()` lead to; a host operation that is
no `load`; a step. -/
theorem witness_ReachableMeetsInvariants :
    (∃ s, Reachable s ∧ ReachableFrom (fun _ => 0xE8#8) [⟨[0xAA#8], 0xFFFF#16⟩] s ∧ s.runState = .running) ∧
      ((∀ img, HostOp.startRun ≠ .load img) ∧ (next (hostOp .startRun State.reset)).isSome = true) ∧
      (next (step (running 0xFFFF#16 [0xE8#8]))).isSome = true :=
  ⟨⟨_, ⟨_, _, loadedAndRunning⟩, loadedAndRunning, rfl⟩, ⟨fun _ h => (nomatch h), by decide⟩, by decide⟩

theorem witness_CanonicalMemoryExtensional :
    Memory.wf [(0, 0x01#8), (65535, 0xFF#8)] = true ∧
      Memory.write8 [(65535, 0xFF#8)] 0x0000#16 0x01#8 = [(0, 0x01#8), (65535, 0xFF#8)] := by decide

theorem witness_SixteenBitAccess : (0xFFFE#16 : Word) ≠ 0xFFFF#16 ∧ (0xFFFE#16 : Word) ≠ 0xFFFF#16 + 1 := by decide

theorem witness_ResetResult : State.reset.runState = .halted := by decide

theorem witness_ResetForgetsTheRun :
    next (hostReset { State.reset with a := 0x12#8, haltCause := .breakHalt, mem := [(0xFFFD, 0x80#8)] }) =
        some { State.reset with pc := 0x8000#16, mem := [(0xFFFD, 0x80#8)] } ∧
      next (hostReset { State.reset with mem := [(0x0001, 0x01#8), (0xFFFD, 0x80#8)] }) =
        some { State.reset with pc := 0x8000#16, mem := [(0x0001, 0x01#8), (0xFFFD, 0x80#8)] } := by decide

theorem witness_RunAdmission :
    next (startRun State.reset) = some { State.reset with runState := .running } ∧
      ({ State.reset with haltCause := .breakHalt }).haltCause ≠ .none ∧ (running 0x0000#16 []).runState = .running := by decide

theorem witness_RunIsTheOnlyWayIntoRunning :
    next (hostOp .startRun State.reset) = some { State.reset with runState := .running } ∧
      (next (step (running 0xFFFF#16 [0xE8#8]))).map State.runState = some .running := by decide

/-- The two sides of the load bound, at its edge. -/
theorem witness_LoadStoresImageThenVector :
    (running 0x0000#16 []).runState = .running ∧ State.reset.runState = .halted ∧ 65536 < (0xFFFF#16 : Word).toNat + [0xE8#8, 0xE8#8].length ∧
      (0xFFFF#16 : Word).toNat + [0xE8#8].length ≤ 65536 := by decide

theorem witness_LoadOverflowChangesNothing :
    next (load ⟨[0xE8#8, 0xE8#8], 0xFFFF#16⟩ State.reset) = some (State.reset, .loadOverflow) ∧
      (next (load ⟨[0xE8#8], 0xFFFF#16⟩ State.reset)).map Prod.snd = some .ok := by decide

theorem witness_LoadThenResetStartsAtOrigin :
    (next (load ⟨[0x01#8, 0x02#8, 0x03#8], 0xFFFD#16⟩ State.reset)).map Prod.snd = some .ok := by decide

theorem witness_LoadAndRunComposes :
    next (load ⟨[0xE8#8, 0xE8#8], 0xFFFF#16⟩ State.reset) = some (State.reset, .loadOverflow) ∧
      (next (load ⟨[0x00#8], 0x8000#16⟩ State.reset)).map Prod.snd = some .ok ∧
      (next (run 1 { State.reset with pc := 0x8000#16, mem := [(0xFFFD, 0x80#8)] })).map State.runState = some .halted := by
  decide

theorem witness_HostActsOnlyWhileHalted :
    (running 0x0000#16 []).runState = .running ∧ State.reset.runState = .halted := by decide

/-- The longest image at 0xFFFF. -/
theorem witness_HostTransactions :
    State.reset.runState = .halted ∧ (0xFFFF#16 : Word).toNat + [0xE8#8].length ≤ 65536 := by decide

theorem witness_HostWriteStoresOneByte :
    State.reset.runState = .halted ∧ (running 0x0000#16 []).runState = .running := by decide

theorem witness_RunStopsAtFirstHaltedState :
    (next (runLoop 2 (running 0x0000#16 [0x00#8]))).map State.runState = some .halted := by decide

theorem witness_RunResultIndependentOfFuel :
    (next (runLoop 1 (running 0x0000#16 [0x01#8]))).map State.runState = some .halted ∧
      (next (runLoop 1 (running 0x0000#16 [0xE8#8]))).map State.runState = some .running := by decide

/-- The hypothesis and both sides of the equivalence, for a run of two steps that ends at the byte 0x00. -/
theorem witness_RunEndsIffHaltingByteFetched :
    (running 0xFFFF#16 [0xE8#8]).runState = .running ∧
      (next (runLoop 2 (running 0xFFFF#16 [0xE8#8]))).map State.runState = some .halted ∧
      (next (stepN 1 (running 0xFFFF#16 [0xE8#8]))).map (fun u => (u.runState, u.mem.read8 u.pc)) =
        some (.running, 0x00#8) := by decide

theorem witness_NoHaltingByteRunsForever :
    ∃ s : State, s.runState = .running ∧ ∀ a : Word, s.mem.read8 a = 0xE8#8 :=
  ⟨{ State.reset with runState := .running, mem := Memory.ofFn fun _ => 0xE8#8 }, rfl,
    fun a => Memory.read8_ofFn (fun _ => 0xE8#8) a⟩

theorem witness_ProgramCounterAfterRun : (next (stepN 1 (running 0xFFFF#16 [0xA9#8, 0x42#8]))).isSome = true := by decide

theorem witness_RunKeepsMemory : (next (run 1 State.reset)).isSome = true := by decide

/-- The two endings. -/
theorem witness_RunEndsNormalOrFatal :
    (next (run 1 State.reset)).map State.runState = some .halted ∧
      (next (run 1 { State.reset with mem := [(0, 0x01#8)] })).map State.returned = some (some .unimplementedOpcode) := by decide

theorem witness_RerunAfterResetEndsTheSame :
    (next (andThen (hostReset State.reset) (run 1))).map State.runState = some .halted := by decide

end Sys2Proof.Tests
end

section
/-! SUPPORT. Proofs about the state, written by the prover: the facts about the flags, the execution and the step that the
invariants rest on. -/

namespace Sys2Proof.Machine

/-! ### The Flag Evaluator as a mask and two bits (rule R30) -/

theorem flagsZN_eq_mask (p v : Byte) :
    flagsZN p v = (p &&& 0x7D#8) ||| (if v = 0x00#8 then 0x02#8 else 0x00#8) ||| (v &&& 0x80#8) := by
  refine BitVec.eq_of_getLsbD_eq fun i hi => ?_
  rw [getLsbD_flagsZN p v i hi]
  by_cases hv : v = 0x00#8
  · interval_cases i <;> simp [hv]
  · interval_cases i <;> simp [hv]

/-- The six unnamed bits are outside both flags. -/
theorem flagsZN_and_unnamed (p v : Byte) : flagsZN p v &&& 0x7D#8 = p &&& 0x7D#8 := by
  refine BitVec.eq_of_getLsbD_eq fun i hi => ?_
  rw [BitVec.getLsbD_and, BitVec.getLsbD_and, getLsbD_flagsZN p v i hi]
  interval_cases i <;> simp

@[simp] theorem State.zero_setZN (s : State) (v : Byte) : (s.setZN v).zero = (v == 0x00#8) :=
  getLsbD_flagsZN s.p v 1 (by decide)

@[simp] theorem State.negative_setZN (s : State) (v : Byte) : (s.setZN v).negative = v.getLsbD 7 :=
  getLsbD_flagsZN s.p v 7 (by decide)

/-- Zero means the byte is 0x00, and 0x00 has no bit 7. -/
theorem State.setZN_not_both (s : State) (v : Byte) : ¬((s.setZN v).zero = true ∧ (s.setZN v).negative = true) := by
  rw [zero_setZN, negative_setZN, beq_iff_eq]
  rintro ⟨rfl, hneg⟩
  exact absurd hneg (by decide)

/-- 0x82 is the byte with both flags set. -/
theorem flagsZN_ne_both (p v : Byte) : flagsZN p v ≠ 0x82#8 := by
  intro h
  have hzero := getLsbD_flagsZN p v 1 (by decide)
  have hneg := getLsbD_flagsZN p v 7 (by decide)
  rw [h] at hzero hneg
  have hv : v = 0x00#8 := by simpa using hzero.symm
  rw [if_pos rfl, hv] at hneg
  exact absurd hneg (by decide)

/-! ### What an execution and a step can do -/

theorem exec_brk (s : State) : exec .brk s = .next s.haltBreak := rfl
theorem exec_lda (v : Byte) (s : State) : exec (.lda v) s = .next ((s.setA v).setZN v) := rfl
theorem exec_tax (s : State) : exec .tax s = .next ((s.setX s.a).setZN s.a) := rfl
theorem exec_inx (s : State) : exec .inx s = .next ((s.setX (s.x + 1)).setZN (s.x + 1)) := rfl

/-- An execution writes `P` by `SetZN` or not at all (rules R30, R31). -/
theorem exec_p {i : Instr} {s t : State} (h : exec i s = .next t) : t.p = s.p ∨ ∃ v, t.p = flagsZN s.p v := by
  obtain ⟨-, rfl⟩ | ⟨v, -, rfl⟩ | ⟨-, rfl⟩ | ⟨-, rfl⟩ := exec_cases h
  · exact .inl rfl
  · exact .inr ⟨v, rfl⟩
  · exact .inr ⟨s.a, rfl⟩
  · exact .inr ⟨s.x + 1, rfl⟩

/-- The arms of a step, each with the opcode byte that selects it and the whole next state (rules R90 to R93, R102, R111). -/
theorem step_arms {s t : State} (h : step s = .next t) :
    (s.mem.read8 s.pc = 0x00#8 ∧ t = (s.setPC (s.pc + 1)).haltBreak) ∨
    (s.mem.read8 s.pc = 0xA9#8 ∧
      t = ((s.setPC (s.pc + 2)).setA (s.mem.read8 (s.pc + 1))).setZN (s.mem.read8 (s.pc + 1))) ∨
    (s.mem.read8 s.pc = 0xAA#8 ∧ t = ((s.setPC (s.pc + 1)).setX s.a).setZN s.a) ∨
    (s.mem.read8 s.pc = 0xE8#8 ∧ t = ((s.setPC (s.pc + 1)).setX (s.x + 1)).setZN (s.x + 1)) ∨
    (decodeOpcode (s.mem.read8 s.pc) = none ∧
      t = (s.setPC (s.pc + 1)).raiseUnimplementedOpcode (s.mem.read8 s.pc) s.pc) := by
  obtain ⟨-, ⟨op, hd, he⟩ | hraise⟩ := step_cases h
  · have hb := decodeOpcode_eq_some hd
    have hpc : s.pc + 1 + 0#16 = s.pc + 1 := BitVec.add_zero _
    have hpc' : s.pc + 1 + 1#16 = s.pc + 2 := BitVec.add_assoc _ _ _
    cases op with
    | brk => exact .inl ⟨hb, hpc ▸ (Host.Outcome.next.inj he).symm⟩
    | lda => exact .inr (.inl ⟨hb, hpc' ▸ (Host.Outcome.next.inj he).symm⟩)
    | tax => exact .inr (.inr (.inl ⟨hb, hpc ▸ (Host.Outcome.next.inj he).symm⟩))
    | inx => exact .inr (.inr (.inr (.inl ⟨hb, hpc ▸ (Host.Outcome.next.inj he).symm⟩)))
  · exact .inr (.inr (.inr (.inr hraise)))

/-- No step writes memory, `Y` or `SP` (rules R35, R60). -/
theorem step_mem_y_sp {s t : State} (h : step s = .next t) : t.mem = s.mem ∧ t.y = s.y ∧ t.sp = s.sp := by
  obtain ⟨-, rfl⟩ | ⟨-, rfl⟩ | ⟨-, rfl⟩ | ⟨-, rfl⟩ | ⟨-, rfl⟩ := step_arms h <;> exact ⟨rfl, rfl, rfl⟩

/-- A step writes `P` by `SetZN` or not at all (rule R31): the fetch before an execution does not touch it. -/
theorem step_p {s t : State} (h : step s = .next t) : t.p = s.p ∨ ∃ v, t.p = flagsZN s.p v := by
  obtain ⟨-, ⟨op, -, he⟩ | ⟨-, rfl⟩⟩ := step_cases h
  · simpa using exec_p he
  · exact .inl rfl

/-- What a step does to the loop state and the report (rules R104, R111): a failed decode writes them; any other step keeps
the report and goes on with the cause it had, or halts with Break. -/
theorem step_report {s t : State} (h : step s = .next t) :
    (decodeOpcode (s.mem.read8 s.pc) = none ∧
      t = (s.setPC (s.pc + 1)).raiseUnimplementedOpcode (s.mem.read8 s.pc) s.pc) ∨
    ((t.haltCause = s.haltCause ∨ t.runState = .halted ∧ t.haltCause = .breakHalt) ∧
      t.faultOpcode = s.faultOpcode ∧ t.faultAddr = s.faultAddr) := by
  obtain ⟨-, rfl⟩ | ⟨-, rfl⟩ | ⟨-, rfl⟩ | ⟨-, rfl⟩ | hraise := step_arms h
  · exact .inr ⟨.inr ⟨rfl, rfl⟩, rfl, rfl⟩
  · exact .inr ⟨.inl rfl, rfl, rfl⟩
  · exact .inr ⟨.inl rfl, rfl, rfl⟩
  · exact .inr ⟨.inl rfl, rfl, rfl⟩
  · exact .inl hraise

/-! ### The report invariant (rules R32, R33, R111) -/

/-- Without a fatal cause the invariant asks for an empty report, and nothing of `PC`. -/
theorem State.ReportInv.of_not_fatal {s : State} (hmem : s.mem.wf = true)
    (hrun : s.runState = .running → s.haltCause = .none) (hcause : s.haltCause ≠ .unimplementedOpcode)
    (hopcode : s.faultOpcode = 0x00#8) (haddr : s.faultAddr = 0x0000#16) : s.ReportInv where
  memCanonical    := hmem
  runningNoCause  := hrun
  reportEmpty _   := ⟨hopcode, haddr⟩
  reportOfAddress := fun h => absurd h hcause
  reportOfOpcode  := fun h => absurd h hcause

/-- `raise UnimplementedOpcode` writes a true report where the byte is in no row and `PC` is just past it. -/
theorem State.ReportInv.raiseUnimplementedOpcode {s : State} {b : Byte} {a0 : Word} (hmem : s.mem.wf = true)
    (hb : decodeOpcode b = none) (hpc : s.pc = a0 + 1) : (s.raiseUnimplementedOpcode b a0).ReportInv where
  memCanonical      := hmem
  runningNoCause h  := nomatch h
  reportEmpty h     := absurd rfl h
  reportOfAddress _ := hpc
  reportOfOpcode _  := hb

theorem step_keeps_reportInv {s t : State} (hs : s.ReportInv) (h : step s = .next t) : t.ReportInv := by
  have hnone : s.haltCause = .none := hs.runningNoCause (step_cases h).1
  obtain ⟨hopcode, haddr⟩ := hs.reportEmpty (by rw [hnone]; decide)
  have hmem : t.mem.wf = true := (step_mem_y_sp h).1 ▸ hs.memCanonical
  obtain ⟨hd, rfl⟩ | ⟨hcause, hopcode', haddr'⟩ := step_report h
  · exact .raiseUnimplementedOpcode hmem hd rfl
  · rw [hnone] at hcause
    refine .of_not_fatal hmem ?_ ?_ (hopcode'.trans hopcode) (haddr'.trans haddr)
    · obtain hc | ⟨hr, -⟩ := hcause
      · exact fun _ => hc
      · simp [hr]
    · obtain hc | ⟨-, hc⟩ := hcause <;> simp [hc]

theorem hostOp_keeps_reportInv {op : HostOp} {s t : State} (hs : s.ReportInv) (h : hostOp op s = .next t) :
    t.ReportInv := by
  obtain ⟨-, ⟨-, rfl⟩ | ⟨img, -, -, rfl⟩ | ⟨img, -, -, rfl⟩ | ⟨-, hc, rfl⟩⟩ := hostOp_cases h
  · exact .of_not_fatal hs.memCanonical (fun _ => rfl) (by simp) rfl rfl
  · exact { hs with memCanonical := Memory.wf_loadedMemory img hs.memCanonical }
  · exact hs
  · obtain ⟨hopcode, haddr⟩ := hs.reportEmpty (by rw [hc]; decide)
    exact .of_not_fatal hs.memCanonical (fun _ => hc) (by simp [hc]) hopcode haddr

theorem construct_reportInv (memInit : Word → Byte) : (State.construct memInit).ReportInv :=
  .of_not_fatal (Memory.wf_ofFn memInit) (fun _ => rfl) (by simp) rfl rfl

/-! ### The register invariant (rule R38) -/

theorem State.RegisterInv.of_zero {s : State} (hy : s.y = 0x00#8) (hsp : s.sp = 0x00#8) (hp : s.p = 0x00#8) :
    s.RegisterInv where
  yZero       := hy
  spZero      := hsp
  unnamedZero := by rw [hp]; rfl
  notBoth     := by rw [hp]; decide

/-- The invariant survives whatever keeps `Y` and `SP` and writes `P` at most by `SetZN`. -/
theorem State.RegisterInv.of_frame {s t : State} (hs : s.RegisterInv) (hy : t.y = s.y) (hsp : t.sp = s.sp)
    (hp : t.p = s.p ∨ ∃ v, t.p = flagsZN s.p v) : t.RegisterInv := by
  obtain hp | ⟨v, hp⟩ := hp
  · exact ⟨hy.trans hs.yZero, hsp.trans hs.spZero, hp ▸ hs.unnamedZero, hp ▸ hs.notBoth⟩
  · exact ⟨hy.trans hs.yZero, hsp.trans hs.spZero,
      hp ▸ (flagsZN_and_unnamed s.p v).trans hs.unnamedZero, hp ▸ flagsZN_ne_both s.p v⟩

theorem step_keeps_registerInv {s t : State} (hs : s.RegisterInv) (h : step s = .next t) : t.RegisterInv := by
  obtain ⟨-, hy, hsp⟩ := step_mem_y_sp h
  exact hs.of_frame hy hsp (step_p h)

theorem hostOp_keeps_registerInv {op : HostOp} {s t : State} (hs : s.RegisterInv) (h : hostOp op s = .next t) :
    t.RegisterInv := by
  obtain ⟨-, ⟨-, rfl⟩ | ⟨img, -, -, rfl⟩ | ⟨img, -, -, rfl⟩ | ⟨-, -, rfl⟩⟩ := hostOp_cases h
  · exact .of_zero rfl rfl rfl
  · exact hs.of_frame rfl rfl (.inl rfl)
  · exact hs
  · exact hs.of_frame rfl rfl (.inl rfl)

/-! ### Reachable states (rules R35, R38) -/

theorem ReachableFrom.invariants {memInit : Word → Byte} {images : List ProgramImage} {s : State}
    (h : ReachableFrom memInit images s) : s.ReportInv ∧ s.RegisterInv := by
  induction h with
  | construct => exact ⟨construct_reportInv memInit, .of_zero rfl rfl rfl⟩
  | host op _ hop ih => exact ⟨hostOp_keeps_reportInv ih.1 hop, hostOp_keeps_registerInv ih.2 hop⟩
  | step _ hstep ih => exact ⟨step_keeps_reportInv ih.1 hstep, step_keeps_registerInv ih.2 hstep⟩

theorem HostOp.stored_wellFormed {op : HostOp} {img : ProgramImage} (h : img ∈ op.stored) : img.wellFormed = true := by
  cases op with
  | reset => nomatch h
  | load img' =>
    by_cases hw : img'.wellFormed = true
    · rw [stored, if_pos hw, List.mem_singleton] at h
      exact h ▸ hw
    · simp [stored, hw] at h
  | startRun => nomatch h

/-- A host operation changes memory by the images it stores, and by nothing else (rules R34, R134, R135). -/
theorem hostOp_mem_stored {op : HostOp} {s t : State} (h : hostOp op s = .next t) :
    t.mem = op.stored.foldl (fun m img => loadedMemory img m) s.mem := by
  obtain ⟨-, ⟨rfl, rfl⟩ | ⟨img, rfl, hw, rfl⟩ | ⟨img, rfl, hw, rfl⟩ | ⟨rfl, -, rfl⟩⟩ := hostOp_cases h
  · rfl
  · simp [HostOp.stored, hw]
  · simp [HostOp.stored, hw]
  · rfl

theorem memoryOfLoads_append (memInit : Word → Byte) (images more : List ProgramImage) :
    memoryOfLoads memInit (images ++ more) =
      more.foldl (fun m img => loadedMemory img m) (memoryOfLoads memInit images) :=
  List.foldl_append

theorem ReachableFrom.images_wellFormed {memInit : Word → Byte} {images : List ProgramImage} {s : State}
    (h : ReachableFrom memInit images s) : ∀ img ∈ images, img.wellFormed = true := by
  induction h with
  | construct => exact fun img himg => nomatch himg
  | host op _ _ ih => exact fun img himg => (List.mem_append.mp himg).elim (ih img) HostOp.stored_wellFormed
  | step _ _ ih => exact ih

theorem ReachableFrom.mem_eq {memInit : Word → Byte} {images : List ProgramImage} {s : State}
    (h : ReachableFrom memInit images s) : s.mem = memoryOfLoads memInit images := by
  induction h with
  | construct => rfl
  | host op _ hop ih => rw [hostOp_mem_stored hop, memoryOfLoads_append, ih]
  | step _ hstep ih => exact (step_mem_y_sp hstep).1.trans ih

/-! ### The status outputs and the stack address -/

theorem HaltCause.code_inj {c d : HaltCause} : c.code = d.code ↔ c = d := by
  cases c <;> cases d <;> decide

theorem HaltCause.code_ne_three (c : HaltCause) : c.code ≠ 0b11#2 := by cases c <;> decide

theorem State.statusOutputs_halted_eq_one (s : State) : s.statusOutputs.halted = 1#1 ↔ s.runState = .halted := by
  cases hr : s.runState <;> simp [statusOutputs, hr]

/-- The sum does not wrap: it is at most 0x01FF (rule R24). -/
theorem State.stackAddress_toNat (s : State) : s.stackAddress.toNat = 0x0100 + s.sp.toNat := by
  have hsp : s.sp.toNat < 256 := s.sp.isLt
  simp only [State.stackAddress, Config.stackPage, BitVec.toNat_add, BitVec.toNat_setWidth, BitVec.toNat_ofNat]
  omega

end Sys2Proof.Machine
end

section
/-! SUPPORT. The statements about the state (spec/10_state.md), settled. -/

namespace Sys2Proof.Machine

/-- Settles O30: a Running loop has no cause, so the report it starts a step with is empty. -/
theorem stepKeepsReportInv : Obligations.StepKeepsReportInv := fun _ _ => step_keeps_reportInv

/-- Settles O32: a step keeps `Y` and `SP` and writes `P` at most by `SetZN`. -/
theorem stepKeepsRegisterInv : Obligations.StepKeepsRegisterInv := fun _ _ => step_keeps_registerInv

/-- Settles O19, arm by arm: the byte at `PC` of an arm excludes the clauses its writes would break. -/
theorem stepFrame : Obligations.StepFrame := by
  intro s t h
  obtain ⟨-, rfl⟩ | ⟨hb, rfl⟩ | ⟨hb, rfl⟩ | ⟨hb, rfl⟩ | ⟨hd, rfl⟩ := step_arms h
  · exact ⟨rfl, rfl, rfl, fun _ => rfl, fun _ _ => rfl, fun _ _ _ => rfl, rfl, fun _ => ⟨rfl, rfl⟩⟩
  · exact ⟨rfl, rfl, rfl, fun hn => absurd hb hn, fun _ _ => rfl, fun hn _ _ => absurd hb hn,
      flagsZN_and_unnamed _ _, fun _ => ⟨rfl, rfl⟩⟩
  · exact ⟨rfl, rfl, rfl, fun _ => rfl, fun hn _ => absurd hb hn, fun _ hn _ => absurd hb hn,
      flagsZN_and_unnamed _ _, fun _ => ⟨rfl, rfl⟩⟩
  · exact ⟨rfl, rfl, rfl, fun _ => rfl, fun _ hn => absurd hb hn, fun _ _ hn => absurd hb hn,
      flagsZN_and_unnamed _ _, fun _ => ⟨rfl, rfl⟩⟩
  · exact ⟨rfl, rfl, rfl, fun _ => rfl, fun _ _ => rfl, fun _ _ _ => rfl, rfl, fun hn => absurd hd hn⟩

/-- Settles O20. -/
theorem setZNMasksAndSets : Obligations.SetZNMasksAndSets := fun s v =>
  ⟨congrArg s.setP (flagsZN_eq_mask s.p v), by rw [State.zero_setZN, beq_iff_eq], s.negative_setZN v,
    s.setZN_not_both v⟩

/-- Settles O21: each clause is what `SetZN` writes, or that no `SetZN` is done. -/
theorem flagDiscipline : Obligations.FlagDiscipline := by
  refine ⟨?_, ?_, ?_, ?_, fun _ => rfl, ?_, ?_⟩
  · intro s t v h
    rw [exec_lda] at h
    obtain rfl := Host.Outcome.next.inj h
    exact ⟨State.zero_setZN _ _, State.negative_setZN _ _⟩
  · rintro s t i (rfl | rfl) h
    · rw [exec_tax] at h
      obtain rfl := Host.Outcome.next.inj h
      exact ⟨State.zero_setZN _ _, State.negative_setZN _ _⟩
    · rw [exec_inx] at h
      obtain rfl := Host.Outcome.next.inj h
      exact ⟨State.zero_setZN _ _, State.negative_setZN _ _⟩
  · intro s t i h bit hbit hne1 hne7
    obtain hp | ⟨v, hp⟩ := exec_p h
    · rw [hp]
    · rw [hp, getLsbD_flagsZN _ _ _ hbit, if_neg hne7, if_neg hne1]
  · intro s t h
    rw [exec_brk] at h
    obtain rfl := Host.Outcome.next.inj h
    rfl
  · intro mode s
    rw [resolve_state, State.setPC_p]
  · intro s t hd h
    obtain ⟨-, ⟨op, hop, -⟩ | ⟨-, rfl⟩⟩ := step_cases h
    · rw [hd] at hop
      nomatch hop
    · rfl

/-- Settles O34, by induction over the host operations and steps that lead to the state. -/
theorem reachableMeetsInvariants : Obligations.ReachableMeetsInvariants :=
  ⟨fun _ ⟨_, _, h⟩ => h.invariants, fun _ _ _ h => ⟨h.images_wellFormed, h.mem_eq⟩,
    fun _ _ _ => hostOp_mem, fun _ _ h => (step_mem_y_sp h).1⟩

/-- Settles O50: the codes of the three causes differ, and none is 0b11. -/
theorem statusOutputCodes : Obligations.StatusOutputCodes := fun s =>
  ⟨s.statusOutputs_halted_eq_one, HaltCause.code_inj (d := .none), HaltCause.code_inj (d := .breakHalt),
    HaltCause.code_inj (d := .unimplementedOpcode), s.haltCause.code_ne_three, rfl, rfl⟩

/-- Settles O33. -/
theorem resetMeetsInvariants : Obligations.ResetMeetsInvariants :=
  ⟨.of_not_fatal Memory.wf_nil (fun _ => rfl) (by decide) rfl rfl, .of_zero rfl rfl rfl⟩

/-- Settles O38. -/
theorem constructionHoldsMemInit : Obligations.ConstructionHoldsMemInit := fun memInit =>
  ⟨Memory.ofFn memInit, rfl, Memory.read8_ofFn memInit⟩

/-- Settles O39: `SP` is one byte. -/
theorem stackAddressInStackPage : Obligations.StackAddressInStackPage := by
  intro s
  have hsp : s.sp.toNat < 256 := s.sp.isLt
  have haddr := s.stackAddress_toNat
  exact ⟨haddr, by omega, by omega⟩

end Sys2Proof.Machine
end

section
/-! SUPPORT. Proofs about memory, written by the prover: the facts about a byte list, the 16-bit accesses, the port and the
step that the statements of spec/20_memory.md rest on. -/

namespace Sys2Proof.Machine

/-! ### The two bytes of a word -/

theorem lowByte_toNat (v : Word) : (lowByte v).toNat = v.toNat % 256 := by
  simp [lowByte]

theorem highByte_toNat (v : Word) : (highByte v).toNat = v.toNat / 256 := by
  have hv : v.toNat < 65536 := v.isLt
  simp only [highByte, BitVec.extractLsb'_toNat, Nat.shiftRight_eq_div_pow]
  omega

namespace Memory

/-! ### The canonical form is the reading function as data (rules R40, R41) -/

theorem mem_of_find {m : Memory} {n : Nat} {v : Byte} (h : find m n = some v) : (n, v) ∈ m := by
  induction m with
  | nil => nomatch h
  | cons c m ih =>
    rw [find] at h
    split at h
    · next hc => exact List.mem_cons.mpr (.inl (Prod.ext hc.symm (Option.some.inj h).symm))
    · exact List.mem_cons_of_mem _ (ih h)

/-- Where addresses rise, no earlier entry hides a later one. -/
theorem find_of_mem {m : Memory} (hm : m.Pairwise (fun c d => c.1 < d.1)) {c : Host.Cell} (hc : c ∈ m) :
    find m c.1 = some c.2 := by
  induction m with
  | nil => nomatch hc
  | cons d m ih =>
    obtain ⟨hd, hm⟩ := List.pairwise_cons.mp hm
    rcases List.mem_cons.mp hc with rfl | hc
    · simp [find]
    · rw [find, if_neg (Nat.ne_of_lt (hd c hc)), ih hm hc]

theorem read8_ofNat (m : Memory) {n : Nat} (h : n < Config.addressSpaceSize) :
    m.read8 (BitVec.ofNat 16 n) = (find m n).getD Config.unlistedByte := by
  have hn : n % 2 ^ 16 = n := Nat.mod_eq_of_lt h
  rw [read8, BitVec.toNat_ofNat, hn]

/-- A canonical memory lists exactly what its reads give, but for the byte of an unlisted address. -/
theorem mem_iff_read8 {m : Memory} (hm : m.wf = true) (c : Host.Cell) :
    c ∈ m ↔ c.1 < Config.addressSpaceSize ∧ c.2 ≠ Config.unlistedByte ∧ m.read8 (BitVec.ofNat 16 c.1) = c.2 := by
  obtain ⟨hrise, hcells⟩ := (wf_iff m).mp hm
  constructor
  · intro hc
    obtain ⟨hlt, hne⟩ := hcells c hc
    exact ⟨hlt, hne, by rw [read8_ofNat m hlt, find_of_mem hrise hc, Option.getD_some]⟩
  · rintro ⟨hlt, hne, hc⟩
    rw [read8_ofNat m hlt] at hc
    cases hf : find m c.1 with
    | none => exact absurd (by rw [← hc, hf, Option.getD_none]) hne
    | some v =>
      rw [hf, Option.getD_some] at hc
      rw [hc] at hf
      exact mem_of_find hf

/-! ### The 16-bit accesses (rules R43, R44) -/

theorem read16_toNat (m : Memory) (a : Word) :
    (m.read16 a).toNat = (m.read8 a).toNat + 256 * (m.read8 (a + 1)).toNat := by
  rw [read16, BitVec.toNat_append, ← Nat.shiftLeft_add_eq_or_of_lt (m.read8 a).isLt, Nat.shiftLeft_eq]
  omega

theorem read8_write16 (m : Memory) (a v b : Word) :
    (m.write16 a v).read8 b = if b = a + 1 then highByte v else if b = a then lowByte v else m.read8 b := by
  rw [write16, read8_write8, read8_write8]

/-- The address of the low byte is not that of the high byte, at 0xFFFF either. -/
theorem read8_write16_self (m : Memory) (a v : Word) : (m.write16 a v).read8 a = lowByte v := by
  have hne : a ≠ a + 1 := by bv_omega
  rw [read8_write16, if_neg hne, if_pos rfl]

theorem read8_write16_next (m : Memory) (a v : Word) : (m.write16 a v).read8 (a + 1) = highByte v := by
  rw [read8_write16, if_pos rfl]

/-- At every address, at 0xFFFF too (decision D7). -/
theorem read16_write16 (m : Memory) (a v : Word) : (m.write16 a v).read16 a = v := by
  refine BitVec.eq_of_toNat_eq ?_
  rw [read16_toNat, read8_write16_self, read8_write16_next, lowByte_toNat, highByte_toNat, Nat.mod_add_div]

/-! ### The memory port (rules R42, R50, R59) -/

/-- A transaction changes the byte at its address if it is a write, and no other (rules R41, R42). -/
theorem read8_perform (m : Memory) (t : Transaction) (a : Word) :
    (m.perform t).read8 a = if t.we && t.addr == a then t.data else m.read8 a := by
  unfold perform
  cases t.we with
  | false => simp
  | true => simp [read8_write8, eq_comm (a := a)]

/-- Copying an image is its writes, performed in order (rule R134). -/
theorem foldl_perform_copyTransactions (m : Memory) (a : Word) (bytes : List Byte) :
    (copyTransactions a bytes).foldl perform m = m.copy a bytes := by
  induction bytes generalizing m a with
  | nil => rfl
  | cons b bytes ih => exact ih (m.write8 a b) (a + 1)

/-- `load` is its writes, performed in order (rules R49, R134). -/
theorem foldl_perform_loadTransactions (img : ProgramImage) (m : Memory) :
    (loadTransactions img).foldl perform m = loadedMemory img m := by
  rw [loadTransactions, List.foldl_append, foldl_perform_copyTransactions]
  rfl

end Memory

theorem length_copyTransactions (a : Word) (bytes : List Byte) : (copyTransactions a bytes).length = bytes.length := by
  induction bytes generalizing a with
  | nil => rfl
  | cons b bytes ih => exact congrArg (· + 1) (ih (a + 1))

theorem length_loadTransactions (img : ProgramImage) : (loadTransactions img).length = img.bytes.length + 2 := by
  rw [loadTransactions, List.length_append, length_copyTransactions]
  rfl

theorem copyTransactions_we {a : Word} {bytes : List Byte} {t : Transaction} (h : t ∈ copyTransactions a bytes) :
    t.we = true := by
  induction bytes generalizing a with
  | nil => nomatch h
  | cons b bytes ih =>
    rcases List.mem_cons.mp h with rfl | h
    · rfl
    · exact ih h

theorem loadTransactions_we {img : ProgramImage} {t : Transaction} (h : t ∈ loadTransactions img) : t.we = true := by
  rcases List.mem_append.mp h with himage | hvector
  · exact copyTransactions_we himage
  · simp only [List.mem_cons, List.not_mem_nil, or_false] at hvector
    rcases hvector with rfl | rfl <;> rfl

/-- An admissible `load` in Halted replaces memory and nothing else (rule R134). -/
theorem load_of_wellFormed {img : ProgramImage} {s : State} (hh : s.runState = .halted) (hw : img.wellFormed = true) :
    load img s = .next (s.setMem (loadedMemory img s.mem), .ok) :=
  whenHalted_next.mpr ⟨hh, if_pos hw⟩

/-! ### What a step takes from memory (rules R58, R60) -/

theorem step_of_some {s : State} {op : Op} (hr : s.runState = .running)
    (hd : decodeOpcode (s.mem.read8 s.pc) = some op) :
    step s = exec (instrOf op (resolve op.mode (s.setPC (s.pc + 1))).1)
      (s.setPC (s.pc + 1 + BitVec.ofNat 16 op.mode.operandWidth)) := by
  simp only [step, hr, stepRunning, fetchInstr_of_some hd]

theorem step_of_none {s : State} (hr : s.runState = .running) (hd : decodeOpcode (s.mem.read8 s.pc) = none) :
    step s = .next ((s.setPC (s.pc + 1)).raiseUnimplementedOpcode (s.mem.read8 s.pc) s.pc) := by
  simp only [step, hr, stepRunning, fetchInstr_of_none hd]

theorem stepReads_of_some {s : State} {op : Op} (hr : s.runState = .running)
    (hd : decodeOpcode (s.mem.read8 s.pc) = some op) :
    stepReads s = s.pc :: operandAddresses op.mode (s.pc + 1) := by
  simp only [stepReads, hr, hd]

theorem stepReads_of_none {s : State} (hr : s.runState = .running) (hd : decodeOpcode (s.mem.read8 s.pc) = none) :
    stepReads s = [s.pc] := by
  simp only [stepReads, hr, hd]

/-- The resolver takes nothing from memory but the operand bytes. -/
theorem resolve_setMem {mode : Mode} {s : State} {m : Memory}
    (h : ∀ a ∈ operandAddresses mode s.pc, m.read8 a = s.mem.read8 a) :
    (resolve mode (s.setMem m)).1 = (resolve mode s).1 := by
  cases mode with
  | implied => rfl
  | immediate => exact congrArg (Operand.at s.pc) (h s.pc (List.mem_singleton.mpr rfl))

/-- An execution takes nothing from memory and keeps it, whatever it is. -/
theorem exec_setMem {i : Instr} {s t : State} (m : Memory) (h : exec i s = .next t) :
    exec i (s.setMem m) = .next (t.setMem m) := by
  obtain ⟨rfl, rfl⟩ | ⟨v, rfl, rfl⟩ | ⟨rfl, rfl⟩ | ⟨rfl, rfl⟩ := exec_cases h
  · rfl
  · rfl
  · rfl
  · rfl

/-- A step goes the same way over any memory that agrees where the step reads. -/
theorem step_setMem {s t : State} {m : Memory} (hm : ∀ a ∈ stepReads s, m.read8 a = s.mem.read8 a)
    (h : step s = .next t) : step (s.setMem m) = .next (t.setMem m) := by
  obtain ⟨hr, ⟨op, hd, he⟩ | ⟨hd, rfl⟩⟩ := step_cases h
  · rw [stepReads_of_some hr hd] at hm
    obtain ⟨hopcode, hoperand⟩ := List.forall_mem_cons.mp hm
    have hstep := step_of_some (s := s.setMem m) hr ((congrArg decodeOpcode hopcode).trans hd)
    have hres := resolve_setMem (s := s.setPC (s.pc + 1)) hoperand
    rw [← hres] at he
    exact hstep.trans (exec_setMem m he)
  · rw [stepReads_of_none hr hd] at hm
    have hopcode := hm s.pc (List.mem_singleton.mpr rfl)
    have hstep := step_of_none (s := s.setMem m) hr ((congrArg decodeOpcode hopcode).trans hd)
    rw [← hopcode]
    exact hstep

/-! ### What a run keeps -/

/-- What every step keeps, the loop of `run()` keeps under any fuel. -/
theorem runLoop_keeps {Keeps : State → Prop} (hstep : ∀ s t, step s = .next t → Keeps s → Keeps t) {fuel : Nat}
    {s t : State} (h : runLoop fuel s = .next t) (hs : Keeps s) : Keeps t := by
  induction fuel generalizing s with
  | zero => exact Host.Outcome.next.inj h ▸ hs
  | succ fuel ih =>
    unfold runLoop at h
    split at h
    · exact Host.Outcome.next.inj h ▸ hs
    · obtain ⟨u, hu, h⟩ := andThen_next.mp h
      exact ih h (hstep s u hu hs)

end Sys2Proof.Machine
end

section
/-! SUPPORT. The statements about memory (spec/20_memory.md), settled. -/

namespace Sys2Proof.Machine

/-- Settles O28, by the two endings of a fetch: the decode sees the opcode byte, the resolver the operand byte, and the
execution no byte of memory. -/
theorem stepDependsOnlyOnBytesRead : Obligations.StepDependsOnlyOnBytesRead := fun _ _ _ => step_setMem

/-- Settles O35: both lists rise strictly and have the same cells. -/
theorem canonicalMemoryExtensional : Obligations.CanonicalMemoryExtensional := by
  intro m n hm hn hread
  have hirrefl : Std.Irrefl fun c d : Host.Cell => c.1 < d.1 := ⟨fun c => Nat.lt_irrefl c.1⟩
  have hantisymm : Std.Antisymm fun c d : Host.Cell => c.1 < d.1 :=
    ⟨fun _ _ hcd hdc => absurd hcd (Nat.lt_asymm hdc)⟩
  refine ((Memory.wf_iff m).mp hm).1.eq_of_mem_iff ((Memory.wf_iff n).mp hn).1 fun c => ?_
  rw [Memory.mem_iff_read8 hm, Memory.mem_iff_read8 hn, hread]

/-- Settles O36. -/
theorem sixteenBitAccess : Obligations.SixteenBitAccess := by
  refine ⟨Memory.read16_toNat, fun m a v => ⟨m.read16_write16 a v, ?_, ?_, fun b hlow hhigh => ?_⟩⟩
  · rw [Memory.read8_write16_self, lowByte_toNat]
  · rw [Memory.read8_write16_next, highByte_toNat]
  · rw [Memory.read8_write16, if_neg hhigh, if_neg hlow]

/-- Settles O37, by induction over the transactions from the last one back. -/
theorem readGivesLatestWrite : Obligations.ReadGivesLatestWrite := by
  intro m ts a
  induction ts using List.reverseRecOn with
  | nil => rfl
  | append_singleton ts t ih =>
    rw [List.foldl_append, List.foldl_cons, List.foldl_nil, Memory.read8_perform, ih, List.reverse_append,
      List.reverse_singleton, List.singleton_append, List.find?_cons]
    cases t.we && t.addr == a <;> rfl

/-- Settles O51: host accesses perform their transactions on memory, and those of a `load` make its memory. -/
theorem hostTransactions : Obligations.HostTransactions := by
  refine ⟨fun img s hh hbound => ⟨_, hostAccesses_of_halted _ hh, ?_⟩, Memory.foldl_perform_loadTransactions,
    fun img => ⟨length_loadTransactions img, fun _ => loadTransactions_we⟩, fun _ => rfl⟩
  rw [Memory.foldl_perform_loadTransactions]
  exact load_of_wellFormed hh (decide_eq_true hbound)

/-- Settles O58: entering Running changes the loop state only, and no step changes the three. -/
theorem runKeepsMemory : Obligations.RunKeepsMemory := by
  intro fuel s t h
  obtain ⟨u, hstart, hloop⟩ := andThen_next.mp h
  obtain ⟨-, -, rfl⟩ := startRun_cases hstart
  refine runLoop_keeps (Keeps := fun u => u.mem = s.mem ∧ u.y = s.y ∧ u.sp = s.sp) (fun u v hstep hu => ?_) hloop
    ⟨rfl, rfl, rfl⟩
  obtain ⟨hmem, hy, hsp⟩ := hu
  obtain ⟨hmem', hy', hsp'⟩ := step_mem_y_sp hstep
  exact ⟨hmem'.trans hmem, hy'.trans hy, hsp'.trans hsp⟩

end Sys2Proof.Machine
end

section
/-! SUPPORT. Proofs about the encoding, written by the prover: what the table lookup, the decoder and the encoder give in each
case, and where a step's reads and `PC` follow them (spec/30_encoding.md rules R65 to R72, R77). -/

namespace Sys2Proof

/-! ### The table lookup (rules R67, R68) -/

theorem Op.forall_iff {p : Op → Prop} : (∀ op, p op) ↔ p .brk ∧ p .lda ∧ p .tax ∧ p .inx :=
  ⟨fun h => ⟨h .brk, h .lda, h .tax, h .inx⟩, fun ⟨hbrk, hlda, htax, hinx⟩ op => by cases op <;> assumption⟩

theorem decodeOpcode_eq_some_iff {b : Byte} {op : Op} : decodeOpcode b = some op ↔ b = op.opcode :=
  ⟨Machine.decodeOpcode_eq_some, fun h => h ▸ Machine.decodeOpcode_opcode op⟩

theorem decodeOpcode_eq_none_iff {b : Byte} :
    decodeOpcode b = none ↔ b ≠ 0x00#8 ∧ b ≠ 0xA9#8 ∧ b ≠ 0xAA#8 ∧ b ≠ 0xE8#8 := by
  rw [Option.eq_none_iff_forall_ne_some]
  simp only [ne_eq, decodeOpcode_eq_some_iff]
  exact Op.forall_iff

/-! ### Lengths (rules R65, R71) -/

theorem Mode.operandWidth_le_one (mode : Mode) : mode.operandWidth ≤ 1 := by cases mode <;> decide

theorem Instr.length_operandBytes (i : Instr) : i.operandBytes.length = i.op.mode.operandWidth := by
  cases i <;> rfl

theorem length_encode (i : Instr) : (encode i).length = i.length := by
  rw [encode, List.length_cons, i.length_operandBytes, Instr.length, Nat.add_comm]

/-- Only Load-Accumulator's row has an operand byte. -/
theorem Instr.length_eq_of_opcode (i : Instr) : i.length = if i.op.opcode = 0xA9#8 then 2 else 1 := by
  cases i <;> rfl

/-! ### The decoder, case by case (rules R70 to R72) -/

/-- The operand of a row is taken exactly where the bytes begin with the operand bytes of an instruction of that row. -/
theorem decodeOperand_eq_ok_iff {op : Op} {bs rest : List Byte} {i : Instr} :
    decodeOperand op bs = .ok (i, rest) ↔ i.op = op ∧ bs = i.operandBytes ++ rest := by
  constructor
  · intro h
    unfold decodeOperand at h
    split at h <;> cases h <;> exact ⟨rfl, rfl⟩
  · rintro ⟨rfl, rfl⟩
    cases i <;> rfl

/-- Taking the operand fails only where Load-Accumulator's is missing. -/
theorem decodeOperand_eq_error_iff {op : Op} {bs : List Byte} {e : DecodeError} :
    decodeOperand op bs = .error e ↔ op = .lda ∧ bs = [] ∧ e = .missingOperand .lda := by
  constructor
  · intro h
    unfold decodeOperand at h
    split at h <;> cases h
    exact ⟨rfl, rfl, rfl⟩
  · rintro ⟨rfl, rfl, rfl⟩
    rfl

theorem decode_nil_eq_error_iff {e : DecodeError} : decode [] = .error e ↔ e = .noByte :=
  ⟨fun h => (Except.error.inj h).symm, fun h => h ▸ rfl⟩

theorem decode_cons_of_some {b : Byte} {op : Op} (bs : List Byte) (h : decodeOpcode b = some op) :
    decode (b :: bs) = decodeOperand op bs := by
  simp only [decode, h]

theorem decode_cons_of_none {b : Byte} (bs : List Byte) (h : decodeOpcode b = none) :
    decode (b :: bs) = .error (.unimplementedOpcode b) := by
  simp only [decode, h]

/-! ### Decoding and encoding -/

theorem decode_encode (i : Instr) (rest : List Byte) : decode (encode i ++ rest) = .ok (i, rest) :=
  (decode_cons_of_some _ (Machine.decodeOpcode_opcode i.op)).trans (decodeOperand_eq_ok_iff.mpr ⟨rfl, rfl⟩)

theorem eq_encode_of_decode {bs rest : List Byte} {i : Instr} (h : decode bs = .ok (i, rest)) :
    bs = encode i ++ rest := by
  cases bs with
  | nil => nomatch h
  | cons b bs =>
    cases hd : decodeOpcode b with
    | none => rw [decode_cons_of_none bs hd] at h; nomatch h
    | some op =>
      rw [decode_cons_of_some bs hd] at h
      obtain ⟨rfl, rfl⟩ := decodeOperand_eq_ok_iff.mp h
      rw [Machine.decodeOpcode_eq_some hd]
      rfl

theorem decode_eq_ok_iff {bs rest : List Byte} {i : Instr} : decode bs = .ok (i, rest) ↔ bs = encode i ++ rest :=
  ⟨eq_encode_of_decode, fun h => h ▸ decode_encode i rest⟩

theorem decode_cons_eq_error_iff {b : Byte} {bs : List Byte} {e : DecodeError} :
    decode (b :: bs) = .error e ↔
      (b = 0xA9#8 ∧ bs = [] ∧ e = .missingOperand .lda) ∨ (decodeOpcode b = none ∧ e = .unimplementedOpcode b) := by
  cases hd : decodeOpcode b with
  | none =>
    obtain ⟨-, hlda, -⟩ := decodeOpcode_eq_none_iff.mp hd
    simp [decode_cons_of_none bs hd, hlda, eq_comm]
  | some op =>
    obtain rfl := Machine.decodeOpcode_eq_some hd
    have hop : op.opcode = 0xA9#8 ↔ op = .lda := by cases op <;> decide
    simp [decode_cons_of_some bs hd, decodeOperand_eq_error_iff, hop]

end Sys2Proof

namespace Sys2Proof.Machine

/-! ### The bytes of a step (rules R60, R77, R103) -/

/-- The operand, where a mode has one, is the byte after the opcode. -/
theorem cons_operandAddresses (mode : Mode) (a : Word) :
    a :: operandAddresses mode (a + 1) = (List.range (1 + mode.operandWidth)).map fun k => a + BitVec.ofNat 16 k := by
  cases mode <;> simp [operandAddresses, Mode.operandWidth, List.range_succ]

/-- Addresses counted up from one do not meet again within the Address Space. -/
theorem nodup_addresses (a : Word) {n : Nat} (hn : n ≤ Config.addressSpaceSize) :
    ((List.range n).map fun k => a + BitVec.ofNat 16 k).Nodup := by
  refine List.nodup_range.map_on fun j hj k hk h => ?_
  have hj : j < 65536 := (List.mem_range.mp hj).trans_le hn
  have hk : k < 65536 := (List.mem_range.mp hk).trans_le hn
  have hjk : j % 65536 = k % 65536 := by simpa using congrArg BitVec.toNat (add_left_cancel h)
  omega

theorem stepLength_of_some {s : State} {op : Op} (hd : decodeOpcode (s.mem.read8 s.pc) = some op) :
    stepLength s = 1 + op.mode.operandWidth := by
  simp only [stepLength, hd]

theorem stepLength_of_none {s : State} (hd : decodeOpcode (s.mem.read8 s.pc) = none) : stepLength s = 1 := by
  simp only [stepLength, hd]

theorem stepLength_le_two (s : State) : stepLength s ≤ 2 := by
  cases hd : decodeOpcode (s.mem.read8 s.pc) with
  | none => rw [stepLength_of_none hd]; decide
  | some op => rw [stepLength_of_some hd]; exact Nat.add_le_add_left op.mode.operandWidth_le_one 1

theorem stepReads_eq_addresses {s : State} (hr : s.runState = .running) :
    stepReads s = (List.range (stepLength s)).map fun k => s.pc + BitVec.ofNat 16 k := by
  cases hd : decodeOpcode (s.mem.read8 s.pc) with
  | none => simp [stepReads_of_none hr hd, stepLength_of_none hd]
  | some op => rw [stepReads_of_some hr hd, stepLength_of_some hd, cons_operandAddresses]

/-- An execution leaves `PC` where the fetch left it (rule R103). -/
theorem exec_pc {i : Instr} {s t : State} (h : exec i s = .next t) : t.pc = s.pc := by
  obtain ⟨-, rfl⟩ | ⟨v, -, rfl⟩ | ⟨-, rfl⟩ | ⟨-, rfl⟩ := exec_cases h <;> rfl

/-- A step moves `PC` past the bytes it takes (rule R103). -/
theorem step_pc {s t : State} (h : step s = .next t) : t.pc = s.pc + BitVec.ofNat 16 (stepLength s) := by
  obtain ⟨-, ⟨op, hd, he⟩ | ⟨hd, rfl⟩⟩ := step_cases h
  · rw [exec_pc he, State.setPC_pc, stepLength_of_some hd, BitVec.ofNat_add, BitVec.add_assoc]
    rfl
  · rw [stepLength_of_none hd]
    rfl

end Sys2Proof.Machine
end

section
/-! SUPPORT. The statements about the encoding (spec/30_encoding.md), settled. -/

namespace Sys2Proof.Machine

/-- Settles O3: decoding undoes encoding, and what decodes is the encoding it starts with. -/
theorem decodeInvertsEncode : Obligations.DecodeInvertsEncode :=
  ⟨fun _ _ _ => decode_eq_ok_iff, fun i => beq_iff_eq.mpr i.length_operandBytes⟩

/-- Settles O4: the empty list is one case, the other two are the two ways a first byte fails. -/
theorem decodeRejectsByName : Obligations.DecodeRejectsByName := by
  intro bs e
  cases bs with
  | nil => simp [decode_nil_eq_error_iff]
  | cons b bs => simp [decode_cons_eq_error_iff, decodeOpcode_eq_none_iff, and_assoc]

/-- Settles O5: what decodes begins with the opcode byte of its own row and is the encoding and the rest. -/
theorem lengthFromOpcodeByte : Obligations.LengthFromOpcodeByte := by
  intro b bs rest i h
  have hbytes := eq_encode_of_decode h
  obtain ⟨rfl, -⟩ := List.cons.inj hbytes
  exact ⟨i.length_eq_of_opcode, by rw [hbytes, List.length_append, length_encode]⟩

/-- Settles O29: the reads are counted up from `PC`, too few to meet again. -/
theorem stepReadsInstructionBytesOnce : Obligations.StepReadsInstructionBytesOnce := by
  intro s t h
  have hreads := stepReads_eq_addresses (step_cases h).1
  refine ⟨hreads, ?_, ?_, ?_⟩
  · rw [hreads]
    exact nodup_addresses s.pc ((stepLength_le_two s).trans (by decide))
  · rw [step_pc h, hreads, List.length_map, List.length_range]
  · intro tr htr
    obtain ⟨a, -, rfl⟩ := List.mem_map.mp htr
    exact ⟨rfl, rfl⟩

/-- Settles O1: each of the four bytes is the opcode of its row, and any other byte is of none. -/
theorem decodeOpcodeIsTheTable : Obligations.DecodeOpcodeIsTheTable := by
  refine ⟨fun b => ?_, ⟨rfl, rfl, rfl, rfl⟩, rfl, rfl⟩
  split_ifs with hbrk hlda htax hinx
  · exact decodeOpcode_eq_some_iff.mpr hbrk
  · exact decodeOpcode_eq_some_iff.mpr hlda
  · exact decodeOpcode_eq_some_iff.mpr htax
  · exact decodeOpcode_eq_some_iff.mpr hinx
  · exact decodeOpcode_eq_none_iff.mpr ⟨hbrk, hlda, htax, hinx⟩

/-- Settles O2: each word is the encoding of its instruction before the bytes left over. -/
theorem specWordsDecode : Obligations.SpecWordsDecode :=
  ⟨decode_encode .brk _, decode_encode (.lda 0x05#8) _, decode_encode .tax _, decode_encode .inx _⟩

end Sys2Proof.Machine
end

section
/-! SUPPORT. Proofs about the Addressing-Mode Resolver, written by the prover (spec/40_addressing_modes.md): an equation for
each mode, and the statement settled. -/

namespace Sys2Proof.Machine

/-- Rule R82: Implied has no operand and takes no byte. -/
theorem resolve_implied (s : State) : resolve .implied s = (.none, s) := rfl

/-- Rules R81, R83: Immediate gives the address in `PC` with the byte there, and takes that byte. -/
theorem resolve_immediate (s : State) :
    resolve .immediate s = (.at s.pc (s.mem.read8 s.pc), s.setPC (s.pc + 1)) := rfl

/-- The next address on integers; after 0xFFFF comes 0x0000 (decision D6). -/
theorem add_one_eq_ofNat_mod (a : Word) : a + 1 = BitVec.ofNat 16 ((a.toNat + 1) % 65536) :=
  BitVec.eq_of_toNat_eq (by simp)

/-- Settles O22, mode by mode; the advance of `PC` is the next address on integers. -/
theorem resolverResult : Obligations.ResolverResult := by
  refine ⟨resolve_implied, fun s => ?_⟩
  rw [resolve_immediate, add_one_eq_ofNat_mod, State.setPC]

end Sys2Proof.Machine
end

section
/-! SUPPORT. Proofs about Load-Accumulator and the frame of every execution, written by the prover
(spec/41_load_accumulator.md), and the statements settled. -/

namespace Sys2Proof.Machine

/-- Rules R81, R83, R102: at the byte 0xA9 a step executes Load-Accumulator on the byte after it, with `PC` past both. -/
theorem step_of_lda {s : State} (hr : s.runState = .running) (hb : s.mem.read8 s.pc = 0xA9#8) :
    step s = exec (.lda (s.mem.read8 (s.pc + 1))) (s.setPC (s.pc + 2)) := by
  have hd : decodeOpcode (s.mem.read8 s.pc) = some .lda := decodeOpcode_eq_some_iff.mpr hb
  have hpc : s.pc + 1 + BitVec.ofNat 16 Op.lda.mode.operandWidth = s.pc + 2 := BitVec.add_assoc _ _ _
  rw [step_of_some hr hd, hpc]
  rfl

/-- Settles O8: `SetZN` of the operand, in its one-expression form, on the state with `A` written. -/
theorem execLdaResult : Obligations.ExecLdaResult := fun s v =>
  (exec_lda v s).trans (congrArg Host.Outcome.next (setZNMasksAndSets (s.setA v) v).1)

/-- Settles O12: the step is the execution on the state with `PC` past both bytes. -/
theorem stepLoadAccumulator : Obligations.StepLoadAccumulator := by
  rintro s v hr hb rfl
  rw [step_of_lda hr hb, execLdaResult]
  rfl

/-- Settles O18, instruction by instruction: an execution writes what its own arm names, and its own name excludes the
clauses those writes would break. -/
theorem execFrame : Obligations.ExecFrame := by
  intro i s t h
  obtain ⟨rfl, rfl⟩ | ⟨v, rfl, rfl⟩ | ⟨rfl, rfl⟩ | ⟨rfl, rfl⟩ := exec_cases h
  · exact ⟨fun _ => rfl, rfl, rfl, rfl, rfl, rfl, fun _ => rfl, fun _ _ => rfl, fun hn => absurd rfl hn,
      fun _ => rfl, rfl⟩
  · exact ⟨fun _ => rfl, rfl, rfl, rfl, rfl, rfl, fun hn => absurd rfl (hn v), fun _ _ => rfl, fun _ => ⟨rfl, rfl⟩,
      nofun, flagsZN_and_unnamed _ _⟩
  · exact ⟨fun _ => rfl, rfl, rfl, rfl, rfl, rfl, fun _ => rfl, fun hn _ => absurd rfl hn, fun _ => ⟨rfl, rfl⟩,
      nofun, flagsZN_and_unnamed _ _⟩
  · exact ⟨fun _ => rfl, rfl, rfl, rfl, rfl, rfl, fun _ => rfl, fun _ hn => absurd rfl hn, fun _ => ⟨rfl, rfl⟩,
      nofun, flagsZN_and_unnamed _ _⟩

end Sys2Proof.Machine
end

section
/-! SUPPORT. Proofs about Transfer-Accumulator-to-Index-X, written by the prover (spec/42_register_transfer.md): the step of
an instruction without an operand, `SetZN` after `SetZN`, and the statements settled. -/

namespace Sys2Proof.Machine

/-- Rules R82, R102: at the opcode of an instruction without an operand, a step executes it with `PC` past that one byte. -/
theorem step_of_implied {s : State} {i : Instr} (hr : s.runState = .running) (hi : i.op.mode = .implied)
    (hb : s.mem.read8 s.pc = i.op.opcode) : step s = exec i (s.setPC (s.pc + 1)) := by
  have hpc : s.pc + 1 + BitVec.ofNat 16 i.op.mode.operandWidth = s.pc + 1 := by
    rw [hi]
    exact BitVec.add_zero _
  rw [step_of_some hr (decodeOpcode_eq_some_iff.mpr hb), hpc]
  cases i with
  | brk => rfl
  | lda v => nomatch hi
  | tax => rfl
  | inx => rfl

/-- Rule R30: `SetZN` reads only the unnamed bits of `P`, and those an earlier `SetZN` kept. -/
@[simp] theorem flagsZN_flagsZN (p u v : Byte) : flagsZN (flagsZN p u) v = flagsZN p v := by
  rw [flagsZN_eq_mask, flagsZN_and_unnamed, ← flagsZN_eq_mask]

@[simp] theorem State.setZN_setZN (s : State) (u v : Byte) : (s.setZN u).setZN v = s.setZN v :=
  congrArg s.setP (flagsZN_flagsZN s.p u v)

/-- Settles O9: `SetZN` of the old `A`, in its one-expression form, on the state with `X` written. -/
theorem execTaxResult : Obligations.ExecTaxResult := fun s =>
  (exec_tax s).trans (congrArg Host.Outcome.next (setZNMasksAndSets (s.setX s.a) s.a).1)

/-- Settles O13: the step is the execution on the state with `PC` past the opcode. -/
theorem stepTransferAccumulatorToX : Obligations.StepTransferAccumulatorToX := by
  intro s hr hb
  rw [step_of_implied (i := .tax) hr rfl hb, execTaxResult]
  rfl

/-- Settles O16: the second execution writes to `X` what it holds, and its `SetZN` replaces the first one of the same byte. -/
theorem transferTwiceSameAsOnce : Obligations.TransferTwiceSameAsOnce := by
  intro s t h
  obtain rfl := Host.Outcome.next.inj ((exec_tax s).symm.trans h)
  exact ⟨rfl, (exec_tax _).trans (congrArg Host.Outcome.next (State.setZN_setZN (s.setX s.a) s.a s.a))⟩

end Sys2Proof.Machine
end

section
/-! SUPPORT. Proofs about Increment-Index-X, written by the prover (spec/43_increment.md): the flags of the next byte in terms
of the old one, any number of executions at once, and the statements settled. -/

namespace Sys2Proof.Machine

/-! ### The next byte and its flags (rule R92) -/

/-- The next byte on integers; after 0xFF comes 0x00. -/
theorem byte_add_one_eq_ofNat_mod (v : Byte) : v + 1 = BitVec.ofNat 8 ((v.toNat + 1) % 256) :=
  BitVec.eq_of_toNat_eq (by simp)

theorem byte_add_one_eq_zero_iff (v : Byte) : v + 1 = 0x00#8 ↔ v = 0xFF#8 := by
  bv_omega

/-- Bit 7 alone is the byte's upper half. -/
theorem and_negative_eq_ite (v : Byte) : v &&& 0x80#8 = if 0x80 ≤ v.toNat then 0x80#8 else 0x00#8 := by
  have hbit : v.getLsbD 7 = decide (0x80 ≤ v.toNat) := v.msb_eq_getLsbD_last.symm.trans v.msb_eq_decide
  have hand : v &&& 0x80#8 = if v.getLsbD 7 then 0x80#8 else 0x00#8 := v.and_twoPow 7
  simpa only [hbit, decide_eq_true_eq] using hand

theorem negative_byte_add_one_iff (v : Byte) : 0x80 ≤ (v + 1).toNat ↔ 0x7F ≤ v.toNat ∧ v.toNat ≤ 0xFE := by
  have hv : v.toNat < 256 := v.isLt
  have hnext : (v + 1).toNat = (v.toNat + 1) % 256 := BitVec.toNat_add v 1
  omega

/-- Settles O10: `SetZN` of the new `X`, in its one-expression form; the new `X` is 0x00 after 0xFF, and in the upper half
after 0x7F to 0xFE. -/
theorem execInxResult : Obligations.ExecInxResult := by
  intro s
  rw [exec_inx, (setZNMasksAndSets (s.setX (s.x + 1)) (s.x + 1)).1, and_negative_eq_ite]
  simp only [byte_add_one_eq_zero_iff, negative_byte_add_one_iff, ← byte_add_one_eq_ofNat_mod]
  rfl

/-- Settles O14: the step is the execution on the state with `PC` past the opcode. -/
theorem stepIncrementX : Obligations.StepIncrementX := by
  rintro s v hr hb rfl
  rw [step_of_implied (i := .inx) hr rfl hb, exec_inx, (setZNMasksAndSets _ _).1, ← byte_add_one_eq_ofNat_mod]
  rfl

/-! ### Any number of increments -/

/-- `X` and `P` written twice in the same way hold the second byte and its flags. -/
theorem State.setX_setZN_setX_setZN (s : State) (u v : Byte) :
    (((s.setX u).setZN u).setX v).setZN v = (s.setX v).setZN v :=
  (s.setX v).setZN_setZN u v

/-- `k + 1` executions of Increment-Index-X are one that adds `k + 1`: the flags of the sums on the way are overwritten. -/
theorem execN_inx (k : Nat) (s : State) :
    execN .inx (k + 1) s =
      .next ((s.setX (s.x + BitVec.ofNat 8 (k + 1))).setZN (s.x + BitVec.ofNat 8 (k + 1))) := by
  induction k generalizing s with
  | zero => rfl
  | succ k ih =>
    have hsum : s.x + 1 + BitVec.ofNat 8 (k + 1) = s.x + BitVec.ofNat 8 (k + 1 + 1) := by
      rw [BitVec.add_assoc, BitVec.add_comm 1, BitVec.ofNat_add (k + 1)]
      rfl
    calc execN .inx (k + 1 + 1) s
        = execN .inx (k + 1) ((s.setX (s.x + 1)).setZN (s.x + 1)) := rfl
      _ = _ := by rw [ih, State.setX_setZN_setX_setZN, State.setZN_x, State.setX_x, hsum]

/-- Settles O17: the executions together add `k + 1` to `X` and do the `SetZN` of the sum. -/
theorem repeatedIncrementsWrap : Obligations.RepeatedIncrementsWrap := by
  intro s k
  refine ⟨_, execN_inx k s, rfl, ?_, flagsZN_eq_mask _ _⟩
  rw [State.setZN_x, State.setX_x, BitVec.toNat_add, BitVec.toNat_ofNat, Nat.add_mod_mod]

end Sys2Proof.Machine
end

section
/-! SUPPORT. The statements about Break/Halt settled, written by the prover (spec/44_break_halt.md). -/

namespace Sys2Proof.Machine

/-- Settles O11: `halt Break` writes the loop's state and its cause, and keeps every other field. -/
theorem execBrkResult : Obligations.ExecBrkResult := fun s => exec_brk s

/-- Settles O15: the step is the execution on the state with `PC` past the opcode. -/
theorem stepBreakHalt : Obligations.StepBreakHalt := by
  intro s hr hb
  rw [step_of_implied (i := .brk) hr rfl hb, execBrkResult]
  rfl

end Sys2Proof.Machine
end

section
/-! SUPPORT. Proofs about the fetch-decode-execute loop, written by the prover (spec/45_execution_loop.md): that every step of
a Running loop completes, how it leaves the loop, and how the loop of `run()` follows the steps. -/

namespace Sys2Proof.Machine

/-! ### One step (rules R100 to R105) -/

/-- Every instruction completes in every state. -/
theorem exec_completes (i : Instr) (s : State) : ∃ t, exec i s = .next t := by
  cases i with
  | brk => exact ⟨_, exec_brk s⟩
  | lda v => exact ⟨_, exec_lda v s⟩
  | tax => exact ⟨_, exec_tax s⟩
  | inx => exact ⟨_, exec_inx s⟩

theorem step_completes {s : State} (hr : s.runState = .running) : ∃ t, step s = .next t := by
  cases hd : decodeOpcode (s.mem.read8 s.pc) with
  | none => exact ⟨_, step_of_none hr hd⟩
  | some op =>
    rw [step_of_some hr hd]
    exact exec_completes _ _

theorem step_of_halted {s : State} (hh : s.runState = .halted) : step s = .fault (haltedFault s) := by
  simp only [step, hh]

theorem haltedFault_of_unimplemented {s : State} (hc : s.haltCause = .unimplementedOpcode) :
    haltedFault s = .unimplementedOpcode s.faultOpcode s.faultAddr := by
  simp only [haltedFault, hc]

theorem haltedFault_of_not_unimplemented {s : State} (hc : s.haltCause ≠ .unimplementedOpcode) :
    haltedFault s = .halted := by
  unfold haltedFault
  split
  · rfl
  · rfl
  · next h => exact absurd h hc

/-- Only Load-Accumulator takes a second byte (rule R103). -/
theorem stepLength_eq_ite (s : State) : stepLength s = if s.mem.read8 s.pc = 0xA9#8 then 2 else 1 := by
  cases hd : decodeOpcode (s.mem.read8 s.pc) with
  | none =>
    obtain ⟨-, hlda, -⟩ := decodeOpcode_eq_none_iff.mp hd
    rw [stepLength_of_none hd, if_neg hlda]
  | some op =>
    rw [stepLength_of_some hd, decodeOpcode_eq_some hd]
    cases op <;> rfl

/-- The two ways out of Running, each with the whole state it leaves, and the way on (rule R104). -/
theorem step_endings {s t : State} (h : step s = .next t) :
    (s.mem.read8 s.pc = 0x00#8 ∧ t = (s.setPC (s.pc + 1)).haltBreak) ∨
    (decodeOpcode (s.mem.read8 s.pc) = none ∧
      t = (s.setPC (s.pc + 1)).raiseUnimplementedOpcode (s.mem.read8 s.pc) s.pc) ∨
    (s.mem.read8 s.pc ≠ 0x00#8 ∧ decodeOpcode (s.mem.read8 s.pc) ≠ none ∧
      t.runState = .running ∧ t.haltCause = s.haltCause) := by
  have hr := (step_cases h).1
  obtain hbrk | ⟨hb, rfl⟩ | ⟨hb, rfl⟩ | ⟨hb, rfl⟩ | hraise := step_arms h
  · exact .inl hbrk
  · exact .inr (.inr ⟨by rw [hb]; decide, by rw [hb]; decide, hr, rfl⟩)
  · exact .inr (.inr ⟨by rw [hb]; decide, by rw [hb]; decide, hr, rfl⟩)
  · exact .inr (.inr ⟨by rw [hb]; decide, by rw [hb]; decide, hr, rfl⟩)
  · exact .inr (.inl hraise)

theorem step_halts_iff {s t : State} (h : step s = .next t) :
    t.runState = .halted ↔ s.mem.read8 s.pc = 0x00#8 ∨ decodeOpcode (s.mem.read8 s.pc) = none := by
  obtain ⟨hb, rfl⟩ | ⟨hd, rfl⟩ | ⟨hb, hd, hr, -⟩ := step_endings h
  · exact ⟨fun _ => .inl hb, fun _ => rfl⟩
  · exact ⟨fun _ => .inr hd, fun _ => rfl⟩
  · simp [hb, hd, hr]

/-- The two endings of a run exclude each other (decision D25). -/
theorem State.NormalEnd.not_fatalEnd {s : State} (h : s.NormalEnd) : ¬s.FatalEnd := by
  rintro ⟨-, hfatal⟩
  obtain ⟨-, hbrk⟩ := h
  exact absurd (hbrk.symm.trans hfatal) nofun

/-! ### A number of steps -/

theorem stepN_succ_of_step {s u : State} (h : step s = .next u) (k : Nat) : stepN (k + 1) s = stepN k u := by
  rw [stepN, h]
  rfl

theorem bytesTaken_succ_of_step {s u : State} (h : step s = .next u) (k : Nat) :
    bytesTaken (k + 1) s = stepLength s + bytesTaken k u := by
  rw [bytesTaken, h]

/-- The last of the steps, split off. -/
theorem stepN_succ_last (k : Nat) (s : State) : stepN (k + 1) s = andThen (stepN k s) step := by
  induction k generalizing s with
  | zero =>
    change andThen (step s) (stepN 0) = step s
    cases step s <;> rfl
  | succ k ih =>
    rw [stepN, stepN]
    cases step s with
    | next u => exact ih u
    | fault r => rfl
    | refused r => rfl

/-! ### The loop of `run()` (rules R107, R108, R137) -/

theorem runLoop_of_halted {s : State} (hh : s.runState = .halted) (fuel : Nat) : runLoop fuel s = .next s := by
  cases fuel with
  | zero => rfl
  | succ fuel => simp only [runLoop, hh]

theorem runLoop_succ_of_step {s u : State} (h : step s = .next u) (fuel : Nat) :
    runLoop (fuel + 1) s = runLoop fuel u := by
  simp only [runLoop, (step_cases h).1, h, andThen]

/-- One turn of the loop: in Halted it answers at once, in Running it goes on from the next state. -/
theorem runLoop_succ_cases (fuel : Nat) (s : State) :
    (s.runState = .halted ∧ runLoop (fuel + 1) s = .next s) ∨
      ∃ u, step s = .next u ∧ runLoop (fuel + 1) s = runLoop fuel u := by
  cases hr : s.runState with
  | halted => exact .inl ⟨rfl, runLoop_of_halted hr _⟩
  | running =>
    obtain ⟨u, hu⟩ := step_completes hr
    exact .inr ⟨u, hu, runLoop_succ_of_step hu fuel⟩

/-- The loop answers the state after some number of steps, Running before each of them; it makes fewer than the fuel allows
only where it answers a Halted state. -/
theorem runLoop_follows_steps (fuel : Nat) (s : State) :
    ∃ k t, k ≤ fuel ∧ runLoop fuel s = .next t ∧ stepN k s = .next t ∧
      (∀ j, j < k → ∃ u, stepN j s = .next u ∧ u.runState = .running) ∧ (t.runState = .running → k = fuel) := by
  induction fuel generalizing s with
  | zero => exact ⟨0, s, le_rfl, rfl, rfl, nofun, fun _ => rfl⟩
  | succ fuel ih =>
    obtain ⟨hh, hloop⟩ | ⟨u, hu, hloop⟩ := runLoop_succ_cases fuel s
    · exact ⟨0, s, Nat.zero_le _, hloop, rfl, nofun, by simp [hh]⟩
    · obtain ⟨k, t, hk, ht, hsteps, hbefore, hfuel⟩ := ih u
      refine ⟨k + 1, t, Nat.succ_le_succ hk, hloop.trans ht, (stepN_succ_of_step hu k).trans hsteps, fun j hj => ?_,
        fun hr => congrArg (· + 1) (hfuel hr)⟩
      cases j with
      | zero => exact ⟨s, rfl, (step_cases hu).1⟩
      | succ j =>
        rw [stepN_succ_of_step hu]
        exact hbefore j (Nat.lt_of_succ_lt_succ hj)

/-- Steps that complete are taken by the loop with as much fuel. -/
theorem runLoop_of_stepN {k : Nat} {s t : State} (h : stepN k s = .next t) : runLoop k s = .next t := by
  induction k generalizing s with
  | zero => exact h
  | succ k ih =>
    obtain ⟨u, hu, h⟩ := andThen_next.mp h
    exact (runLoop_succ_of_step hu k).trans (ih h)

/-- Fuel used up and given again is fuel given at once. -/
theorem runLoop_add (fuel more : Nat) (s : State) :
    runLoop (fuel + more) s = andThen (runLoop fuel s) (runLoop more) := by
  induction fuel generalizing s with
  | zero => rw [Nat.zero_add]; rfl
  | succ fuel ih =>
    obtain ⟨hh, hloop⟩ | ⟨u, hu, hloop⟩ := runLoop_succ_cases fuel s
    · rw [hloop, runLoop_of_halted hh]
      exact (runLoop_of_halted hh more).symm
    · rw [hloop, Nat.succ_add, runLoop_succ_of_step hu, ih]

/-- The first Halted state of a run is what its last step leaves. -/
theorem runLoop_last_step {fuel : Nat} {s t : State} (hr : s.runState = .running) (h : runLoop fuel s = .next t)
    (hh : t.runState = .halted) : ∃ k u, stepN k s = .next u ∧ step u = .next t := by
  obtain ⟨k, t', -, ht', hsteps, -, -⟩ := runLoop_follows_steps fuel s
  obtain rfl := Host.Outcome.next.inj (ht'.symm.trans h)
  cases k with
  | zero =>
    obtain rfl := Host.Outcome.next.inj hsteps
    exact absurd (hr.symm.trans hh) nofun
  | succ k => exact ⟨k, andThen_next.mp (stepN_succ_last k s ▸ hsteps)⟩

/-! ### The placed word (log entry 4) -/

theorem State.withFetchWord_mem (s : State) (nbits w : Nat) :
    (s.withFetchWord nbits w).mem = (s.mem.write8 s.pc (BitVec.ofNat 8 (w % 2 ^ nbits))).write8 (s.pc + 1)
      (BitVec.ofNat 8 (w % 2 ^ nbits / 256)) := rfl

/-- The address after `PC` is another, at 0xFFFF too, so the second byte does not cover the first. -/
theorem read8_withFetchWord_pc (s : State) (nbits w : Nat) :
    (s.withFetchWord nbits w).mem.read8 s.pc = BitVec.ofNat 8 (w % 2 ^ nbits) := by
  have hne : s.pc ≠ s.pc + 1 := by bv_omega
  rw [State.withFetchWord_mem, Memory.read8_write8, if_neg hne, Memory.read8_write8, if_pos rfl]

theorem read8_withFetchWord_next (s : State) (nbits w : Nat) :
    (s.withFetchWord nbits w).mem.read8 (s.pc + 1) = BitVec.ofNat 8 (w % 2 ^ nbits / 256) := by
  rw [State.withFetchWord_mem, Memory.read8_write8, if_pos rfl]

theorem decode_of_decodeTableWord {nbits w : Nat} {i : Instr} (h : decodeTableWord nbits w = some i) :
    ∃ rest, decode (tableWordBytes nbits w) = .ok (i, rest) := by
  unfold decodeTableWord at h
  split at h
  · next rest hd => exact ⟨rest, Option.some.inj h ▸ hd⟩
  · nomatch h

end Sys2Proof.Machine
end

section
/-! SUPPORT. The statements about the execution loop (spec/45_execution_loop.md), settled. -/

namespace Sys2Proof.Machine

/-- Settles O6, instruction by instruction: the two bytes begin with its encoding, so the byte at `PC` selects its row and
the next one is Load-Accumulator's operand. -/
theorem stepRunsDecodedInstruction : Obligations.StepRunsDecodedInstruction := by
  intro s i rest hr h
  obtain ⟨hopcode, htail⟩ := List.cons.inj (eq_encode_of_decode h)
  cases i with
  | brk => exact step_of_implied hr rfl hopcode
  | lda v =>
    obtain ⟨rfl, -⟩ := List.cons.inj htail
    exact step_of_lda hr hopcode
  | tax => exact step_of_implied hr rfl hopcode
  | inx => exact step_of_implied hr rfl hopcode

/-- Settles O7: the placed word's bytes are those at `PC` and after it, so the step decodes what the word decodes to. -/
theorem placedWordRunsNext : Obligations.PlacedWordRunsNext := by
  intro s nbits w i h
  obtain ⟨rest, hd⟩ := decode_of_decodeTableWord h
  rw [tableWordBytes, ← read8_withFetchWord_pc s, ← read8_withFetchWord_next s] at hd
  exact stepRunsDecodedInstruction (s.withFetchWord nbits w) i rest rfl hd

/-- Settles O24: the bytes a step takes, on integers. -/
theorem programCounterLaw : Obligations.ProgramCounterLaw := by
  intro s t h
  rw [step_pc h, BitVec.toNat_add, BitVec.toNat_ofNat, Nat.add_mod_mod, stepLength_eq_ite]

/-- Settles O25. -/
theorem stepTakenExactlyWhileRunning : Obligations.StepTakenExactlyWhileRunning := fun _ =>
  ⟨step_completes,
    fun hh hc => (step_of_halted hh).trans (congrArg _ (haltedFault_of_unimplemented hc)),
    fun hh hc => (step_of_halted hh).trans (congrArg _ (haltedFault_of_not_unimplemented hc))⟩

/-- Settles O26, ending by ending: 0x00 is in the table, so the two ways out exclude each other. -/
theorem haltsOnlyByBreakOrUnimplemented : Obligations.HaltsOnlyByBreakOrUnimplemented := by
  intro s t h
  refine ⟨step_halts_iff h, ?_⟩
  obtain ⟨hb, rfl⟩ | ⟨hd, rfl⟩ | ⟨hb, hd, -, hc⟩ := step_endings h
  · exact ⟨fun _ => rfl, fun hd => absurd hb (decodeOpcode_eq_none_iff.mp hd).1, nofun⟩
  · exact ⟨fun hb => absurd hb (decodeOpcode_eq_none_iff.mp hd).1, fun _ => ⟨rfl, rfl, rfl⟩, nofun⟩
  · exact ⟨fun hb' => absurd hb' hb, fun hd' => absurd hd' hd, fun _ => hc⟩

/-- Settles O44: a host operation starts in Halted, and of its effects only the entry of a run writes Running. -/
theorem runIsTheOnlyWayIntoRunning : Obligations.RunIsTheOnlyWayIntoRunning := by
  refine ⟨fun op s t h hr => ?_, fun s t h _ => (step_cases h).1, State.construct_runState⟩
  obtain ⟨hh, ⟨-, rfl⟩ | ⟨img, -, -, rfl⟩ | ⟨img, -, -, rfl⟩ | ⟨hop, -, ht⟩⟩ := hostOp_cases h
  · nomatch hr
  · exact absurd (hh.symm.trans hr) nofun
  · exact absurd (hh.symm.trans hr) nofun
  · exact ⟨hop, ht⟩

/-- Settles O53. -/
theorem runStopsAtFirstHaltedState : Obligations.RunStopsAtFirstHaltedState := by
  intro fuel s t h _
  obtain ⟨k, t', hk, ht', hsteps, hbefore, -⟩ := runLoop_follows_steps fuel s
  obtain rfl := Host.Outcome.next.inj (ht'.symm.trans h)
  exact ⟨k, hk, hsteps, hbefore⟩

/-- Settles O54: a Running answer has used all its fuel, and a Halted one is what more fuel starts from. -/
theorem runResultIndependentOfFuel : Obligations.RunResultIndependentOfFuel := by
  constructor
  · intro fuel s
    obtain ⟨k, t, -, ht, hsteps, -, hfuel⟩ := runLoop_follows_steps fuel s
    exact ⟨t, ht, fun hr => hfuel hr ▸ hsteps⟩
  · intro fuel more s t h hh
    rw [runLoop_add, h]
    exact runLoop_of_halted hh more

/-- Settles O55: the last step of an ended run fetches a halting byte, and a step that fetches one is a last step. -/
theorem runEndsIffHaltingByteFetched : Obligations.RunEndsIffHaltingByteFetched := by
  intro s hr
  constructor
  · rintro ⟨fuel, t, h, hh⟩
    obtain ⟨k, u, hsteps, hlast⟩ := runLoop_last_step hr h hh
    exact ⟨k, u, hsteps, (step_cases hlast).1, (step_halts_iff hlast).mp hh⟩
  · rintro ⟨k, u, hsteps, hu, hbyte⟩
    obtain ⟨t, hlast⟩ := step_completes hu
    have hend : stepN (k + 1) s = .next t := (stepN_succ_last k s).trans (andThen_next.mpr ⟨u, hsteps, hlast⟩)
    exact ⟨k + 1, t, runLoop_of_stepN hend, (step_halts_iff hlast).mpr hbyte⟩

/-- Settles O56, by induction on the number of steps: a step over such a memory halts at no byte and keeps memory. -/
theorem noHaltingByteRunsForever : Obligations.NoHaltingByteRunsForever := by
  intro s hr hmem k
  induction k generalizing s with
  | zero => exact ⟨s, rfl, hr⟩
  | succ k ih =>
    obtain ⟨u, hu⟩ := step_completes hr
    have hur : u.runState = .running := by
      obtain ⟨hb, -⟩ | ⟨hd, -⟩ | ⟨-, -, hur, -⟩ := step_endings hu
      · have hbyte := hmem s.pc
        rw [hb] at hbyte
        exact absurd hbyte (by decide)
      · obtain ⟨-, hlda, htax, hinx⟩ := decodeOpcode_eq_none_iff.mp hd
        simpa [hlda, htax, hinx] using hmem s.pc
      · exact hur
    rw [stepN_succ_of_step hu]
    exact ih u hur ((step_mem_y_sp hu).1 ▸ hmem)

/-- Settles O57, by induction on the number of steps. -/
theorem programCounterAfterRun : Obligations.ProgramCounterAfterRun := by
  intro k s t h
  induction k generalizing s with
  | zero =>
    obtain rfl := Host.Outcome.next.inj h
    exact (BitVec.add_zero s.pc).symm
  | succ k ih =>
    obtain ⟨u, hu, h⟩ := andThen_next.mp h
    rw [ih u h, step_pc hu, bytesTaken_succ_of_step hu, BitVec.ofNat_add, BitVec.add_assoc]

/-- Settles O59: the last step of the run leaves Running in one of the two ways, and each writes its own report. -/
theorem runEndsNormalOrFatal : Obligations.RunEndsNormalOrFatal := by
  intro fuel s t h hh
  obtain ⟨v, hstart, hloop⟩ := andThen_next.mp h
  obtain ⟨-, -, rfl⟩ := startRun_cases hstart
  obtain ⟨k, u, -, hlast⟩ := runLoop_last_step rfl hloop hh
  obtain ⟨hb, rfl⟩ | ⟨hd, rfl⟩ | ⟨-, -, hr, -⟩ := step_endings hlast
  · have hpc : u.pc + 1 - 1 = u.pc := add_sub_cancel_right u.pc 1
    have hnormal : (u.setPC (u.pc + 1)).haltBreak.NormalEnd := ⟨rfl, rfl⟩
    exact .inl ⟨hnormal, hnormal.not_fatalEnd, (congrArg u.mem.read8 hpc).trans hb⟩
  · exact .inr ⟨⟨rfl, rfl⟩, fun hnormal => hnormal.not_fatalEnd ⟨rfl, rfl⟩, rfl, hd, rfl⟩
  · exact absurd (hr.symm.trans hh) nofun

end Sys2Proof.Machine
end

section
/-! SUPPORT. Proofs about the conditions, written by the prover: which host operations and parts of a step can answer a fault,
what `load` answers on each side of its bound, and what `reset()` takes from the state (spec/60_exceptions.md). -/

namespace Sys2Proof.Machine

/-! ### Faults (rules R110, R114) -/

/-- The admission of a host operation adds no fault: out of turn it refuses (rule R140). -/
theorem whenHalted_fault {τ : Type} {s : State} {o : Host.Outcome τ Fault Refusal} {r : Fault} :
    whenHalted s o = .fault r ↔ s.runState = .halted ∧ o = .fault r := by
  unfold whenHalted
  cases h : s.runState <;> simp

/-- A sequence faulted: its first part did, or that part answered and the second one did. -/
theorem andThen_fault {σ τ : Type} {o : Host.Outcome σ Fault Refusal} {k : σ → Host.Outcome τ Fault Refusal} {r : Fault} :
    andThen o k = .fault r ↔ o = .fault r ∨ ∃ s, o = .next s ∧ k s = .fault r := by
  cases o <;> simp [andThen]

theorem haltedFault_ne_outOfBounds (s : State) : haltedFault s ≠ .outOfBoundsAddress := by
  by_cases hc : s.haltCause = .unimplementedOpcode
  · rw [haltedFault_of_unimplemented hc]
    nofun
  · rw [haltedFault_of_not_unimplemented hc]
    nofun

theorem hostReset_ne_fault (s : State) (r : Fault) : hostReset s ≠ .fault r := fun h =>
  absurd (whenHalted_fault.mp h).2 nofun

/-- `load` has no fatal condition: an overflow is a status that it answers (rule R115). -/
theorem load_ne_fault (img : ProgramImage) (s : State) (r : Fault) : load img s ≠ .fault r := by
  intro h
  obtain ⟨-, h⟩ := whenHalted_fault.mp h
  split at h <;> nomatch h

/-- The entry of a run has no fatal condition: after an ended run it refuses (rule R141). -/
theorem startRun_ne_fault (s : State) (r : Fault) : startRun s ≠ .fault r := by
  intro h
  obtain ⟨-, h⟩ := whenHalted_fault.mp h
  cases hc : s.haltCause <;> simp [hc] at h

theorem hostOp_ne_fault (op : HostOp) (s : State) (r : Fault) : hostOp op s ≠ .fault r := by
  cases op with
  | reset => exact hostReset_ne_fault s r
  | load img =>
    intro h
    obtain h | ⟨_, -, h⟩ := andThen_fault.mp h
    · exact load_ne_fault img s r h
    · nomatch h
  | startRun => exact startRun_ne_fault s r

/-- A run has no fault at all: its loop takes a step in Running only, where every step completes. -/
theorem run_ne_fault (fuel : Nat) (s : State) (r : Fault) : run fuel s ≠ .fault r := by
  intro h
  obtain h | ⟨u, -, h⟩ := andThen_fault.mp h
  · exact startRun_ne_fault s r h
  · obtain ⟨_, t, -, ht, -⟩ := runLoop_follows_steps fuel u
    exact absurd (ht.symm.trans h) nofun

/-! ### `load` at its bound (rules R115, R134, R135) -/

theorem wellFormed_iff_bound (img : ProgramImage) :
    img.wellFormed = true ↔ img.origin.toNat + img.bytes.length ≤ 0x10000 := decide_eq_true_iff

/-- Everything a `load` that answers can do. -/
theorem load_cases {img : ProgramImage} {s t : State} {status : LoadStatus} (h : load img s = .next (t, status)) :
    (img.wellFormed = true ∧ t = s.setMem (loadedMemory img s.mem) ∧ status = .ok) ∨
      (¬img.wellFormed = true ∧ t = s ∧ status = .loadOverflow) := by
  obtain ⟨-, h⟩ := whenHalted_next.mp h
  split at h
  · next hw =>
    obtain ⟨rfl, rfl⟩ := Prod.mk.inj (Host.Outcome.next.inj h)
    exact .inl ⟨hw, rfl, rfl⟩
  · next hw =>
    obtain ⟨rfl, rfl⟩ := Prod.mk.inj (Host.Outcome.next.inj h)
    exact .inr ⟨hw, rfl, rfl⟩

/-! ### `reset()` (rules R116, R131) -/

theorem hostReset_of_halted {s : State} (hh : s.runState = .halted) : hostReset s = .next s.afterReset :=
  whenHalted_next.mpr ⟨hh, rfl⟩

theorem hostReset_cases {s t : State} (h : hostReset s = .next t) : s.runState = .halted ∧ t = s.afterReset := by
  obtain ⟨hh, h⟩ := whenHalted_next.mp h
  exact ⟨hh, (Host.Outcome.next.inj h).symm⟩

/-- `reset()` takes nothing from the state but its memory. -/
theorem State.afterReset_congr {s t : State} (h : s.mem = t.mem) : s.afterReset = t.afterReset := by
  simp only [State.afterReset, h]

end Sys2Proof.Machine
end

section
/-! SUPPORT. The statements about the conditions (spec/60_exceptions.md), settled. -/

namespace Sys2Proof.Machine

/-- Settles O23: the four bytes named are the table's, so the decode fails and the step is the raise. -/
theorem stepUnimplementedOpcode : Obligations.StepUnimplementedOpcode := by
  rintro s b hr rfl hbrk hlda htax hinx
  exact step_of_none hr (decodeOpcode_eq_none_iff.mpr ⟨hbrk, hlda, htax, hinx⟩)

/-- Settles O27: executions, host operations and runs answer no fault, and the fault of a step is Halted's. -/
theorem nothingRaisesOutOfBounds : Obligations.NothingRaisesOutOfBounds := by
  refine ⟨fun i s h => ?_, fun s h => ?_, fun op s => hostOp_ne_fault op s _, fun fuel s => run_ne_fault fuel s _⟩
  · obtain ⟨t, ht⟩ := exec_completes i s
    exact absurd (ht.symm.trans h) nofun
  · cases hr : s.runState with
    | running =>
      obtain ⟨t, ht⟩ := step_completes hr
      exact absurd (ht.symm.trans h) nofun
    | halted => exact haltedFault_ne_outOfBounds s (Host.Outcome.fault.inj ((step_of_halted hr).symm.trans h))

/-- Settles O46, on each side of the bound that `load` checks first. -/
theorem loadOverflowChangesNothing : Obligations.LoadOverflowChangesNothing := by
  intro img s t status h
  rw [← not_le, ← wellFormed_iff_bound]
  obtain ⟨hw, -, rfl⟩ | ⟨hw, rfl, rfl⟩ := load_cases h
  · exact ⟨⟨nofun, absurd hw⟩, nofun⟩
  · exact ⟨⟨fun _ => hw, fun _ => rfl⟩, fun _ => rfl⟩

/-- Settles O60: the run kept memory, which is all that the second `reset()` takes, so the second run starts from the very
state the first one did. -/
theorem rerunAfterResetEndsTheSame : Obligations.RerunAfterResetEndsTheSame := by
  intro fuel s t h hh
  obtain ⟨u, hreset, hrun⟩ := andThen_next.mp h
  obtain ⟨-, rfl⟩ := hostReset_cases hreset
  have hmem : t.mem = s.mem := (runKeepsMemory fuel s.afterReset t hrun).1
  rw [hostReset_of_halted hh, State.afterReset_congr hmem]
  exact hrun

end Sys2Proof.Machine
end

section
/-! SUPPORT. Proofs about the host operations, written by the prover: what each of them answers in Running and in Halted,
every byte of memory after a `load`, and what `reset()` takes from the vector (spec/70_reset_and_hazards.md). -/

namespace Sys2Proof.Machine

/-! ### Admission (rules R139 to R141) -/

theorem whenHalted_of_running {τ : Type} {s : State} (hr : s.runState = .running) (o : Host.Outcome τ Fault Refusal) :
    whenHalted s o = .refused .hostActionDuringRun := by
  simp only [whenHalted, hr]

theorem whenHalted_of_halted {τ : Type} {s : State} (hh : s.runState = .halted) (o : Host.Outcome τ Fault Refusal) :
    whenHalted s o = o := by
  simp only [whenHalted, hh]

/-- A refusal of the first part is that of the whole sequence. -/
theorem andThen_of_refused {σ τ : Type} {o : Host.Outcome σ Fault Refusal} {r : Refusal} (h : o = .refused r)
    (k : σ → Host.Outcome τ Fault Refusal) : andThen o k = .refused r := by
  rw [h, andThen]

theorem load_of_running {s : State} (hr : s.runState = .running) (img : ProgramImage) :
    load img s = .refused .hostActionDuringRun := whenHalted_of_running hr _

theorem startRun_of_running {s : State} (hr : s.runState = .running) : startRun s = .refused .hostActionDuringRun :=
  whenHalted_of_running hr _

theorem hostOp_of_running {s : State} (hr : s.runState = .running) (op : HostOp) :
    hostOp op s = .refused .hostActionDuringRun := by
  cases op with
  | reset => exact whenHalted_of_running hr _
  | load img => exact andThen_of_refused (load_of_running hr img) _
  | startRun => exact startRun_of_running hr

/-! ### The entry of a run (rules R101, R137, R141) -/

theorem startRun_of_no_cause {s : State} (hh : s.runState = .halted) (hc : s.haltCause = .none) :
    startRun s = .next (s.setRunState .running) := by
  simp only [startRun, whenHalted_of_halted hh, hc]

theorem startRun_of_cause {s : State} (hh : s.runState = .halted) (hc : s.haltCause ≠ .none) :
    startRun s = .refused .runWithoutReset := by
  rw [startRun, whenHalted_of_halted hh]
  split
  · next h => exact absurd h hc
  · rfl
  · rfl

/-! ### Memory after a `load` (rules R134 to R136) -/

theorem lowByte_eq_ofNat (v : Word) : lowByte v = BitVec.ofNat 8 (v.toNat % 256) :=
  BitVec.eq_of_toNat_eq (by simp [lowByte_toNat])

theorem highByte_eq_ofNat (v : Word) : highByte v = BitVec.ofNat 8 (v.toNat / 256) := by
  rw [← highByte_toNat, BitVec.ofNat_toNat, BitVec.setWidth_eq]

/-- An image no longer than the Address Space covers the bytes at a distance below its length from the first address,
counted upward and modulo 65,536, each by one byte of its own. -/
theorem Memory.read8_copy (m : Memory) (a b : Word) (bytes : List Byte)
    (hlen : bytes.length ≤ Config.addressSpaceSize) :
    (m.copy a bytes).read8 b = (bytes[(b - a).toNat]?).getD (m.read8 b) := by
  induction bytes generalizing m a with
  | nil => rfl
  | cons v bytes ih =>
    have hlt : bytes.length < 65536 := hlen
    rw [copy, ih (m.write8 a v) (a + 1) hlt.le, read8_write8]
    by_cases hb : b = a
    · subst hb
      have hlast : (b - (b + 1)).toNat = 65535 := by bv_omega
      have hnone : bytes[65535]? = none := List.getElem?_eq_none (Nat.le_of_lt_succ hlt)
      rw [hlast, hnone, if_pos rfl, BitVec.sub_self]
      rfl
    · have hdist : (b - a).toNat = (b - (a + 1)).toNat + 1 := by bv_omega
      rw [if_neg hb, hdist, List.getElem?_cons_succ]

/-- Within the load bound the distance does not wrap: an image covers no byte below its origin. -/
theorem Memory.read8_copy_of_bound (m : Memory) (a b : Word) (bytes : List Byte)
    (hbound : a.toNat + bytes.length ≤ 65536) :
    (m.copy a bytes).read8 b =
      if a.toNat ≤ b.toNat then (bytes[b.toNat - a.toNat]?).getD (m.read8 b) else m.read8 b := by
  rw [read8_copy m a b bytes (le_of_add_le_right hbound)]
  split
  · next hle => rw [BitVec.toNat_sub_of_le hle]
  · next hlt =>
    have hfar : bytes.length ≤ (b - a).toNat := by bv_omega
    rw [List.getElem?_eq_none hfar, Option.getD_none]

/-- The vector's two bytes are written last. -/
theorem read8_loadedMemory (img : ProgramImage) (m : Memory) (b : Word) :
    (loadedMemory img m).read8 b =
      if b = 0xFFFC#16 then BitVec.ofNat 8 (img.origin.toNat % 256)
      else if b = 0xFFFD#16 then BitVec.ofNat 8 (img.origin.toNat / 256)
      else (m.copy img.origin img.bytes).read8 b := by
  have hnext : Config.resetVector + 1 = 0xFFFD#16 := rfl
  rw [loadedMemory, Memory.read8_write16, hnext, lowByte_eq_ofNat, highByte_eq_ofNat]
  by_cases hlow : b = 0xFFFC#16
  · subst hlow
    rfl
  · rw [if_neg hlow, if_neg (show b ≠ Config.resetVector from hlow)]

theorem load_of_not_wellFormed {img : ProgramImage} {s : State} (hh : s.runState = .halted)
    (hw : ¬img.wellFormed = true) : load img s = .next (s, .loadOverflow) :=
  whenHalted_next.mpr ⟨hh, if_neg hw⟩

/-! ### `reset()` and the vector (rules R131, R142) -/

/-- `reset()` takes from memory its two vector bytes and no other. -/
theorem State.afterReset_setMem {s t : State} (hlow : s.mem.read8 0xFFFC#16 = t.mem.read8 0xFFFC#16)
    (hhigh : s.mem.read8 0xFFFD#16 = t.mem.read8 0xFFFD#16) : s.afterReset.setMem t.mem = t.afterReset := by
  have hvector : s.mem.read16 Config.resetVector = t.mem.read16 Config.resetVector :=
    congrArg₂ (fun high low : Byte => high ++ low) hhigh hlow
  rw [State.afterReset, hvector]
  rfl

theorem State.afterReset_afterReset (s : State) : s.afterReset.afterReset = s.afterReset := rfl

/-- The vector of a loaded memory is the origin, even where the image covered it (decision D14). -/
theorem read16_loadedMemory_resetVector (img : ProgramImage) (m : Memory) :
    (loadedMemory img m).read16 Config.resetVector = img.origin :=
  Memory.read16_write16 _ _ _

/-- The default `MEM_INIT` lists no address. -/
theorem Memory.ofFn_unlistedByte : Memory.ofFn (fun _ => Config.unlistedByte) = [] :=
  canonicalMemoryExtensional _ _ (wf_ofFn _) wf_nil (read8_ofFn _)

/-! ### `load_and_run` (rule R138) -/

theorem loadAndRunAt_of_overflow {origin : Word} {bytes : List Byte} {s t : State} (fuel : Nat)
    (h : load ⟨bytes, origin⟩ s = .next (t, .loadOverflow)) :
    loadAndRunAt origin fuel bytes s = .next (t, .loadOverflow) := by
  rw [loadAndRunAt, h]
  rfl

theorem loadAndRunAt_of_ok {origin : Word} {bytes : List Byte} {s t : State} (fuel : Nat)
    (h : load ⟨bytes, origin⟩ s = .next (t, .ok)) :
    loadAndRunAt origin fuel bytes s = andThen (andThen (hostReset t) (run fuel)) fun u => .next (u, .ok) := by
  rw [loadAndRunAt, h]
  rfl

end Sys2Proof.Machine
end

section
/-! SUPPORT. The statements about the host operations (spec/70_reset_and_hazards.md), settled. -/

namespace Sys2Proof.Machine

/-- Settles O31: the report is kept or cleared, and memory keeps its canonical form. -/
theorem hostOpKeepsReportInv : Obligations.HostOpKeepsReportInv := by
  refine ⟨fun op s t => hostOp_keeps_reportInv, fun a v s t hs h => ?_⟩
  obtain ⟨-, rfl⟩ := hostWrite8_cases h
  exact { hs with memCanonical := Memory.wf_write8 a v hs.memCanonical }

/-- Settles O41. -/
theorem resetForgetsTheRun : Obligations.ResetForgetsTheRun := by
  intro s t u v hs ht hlow hhigh
  obtain ⟨-, rfl⟩ := hostReset_cases hs
  obtain ⟨-, rfl⟩ := hostReset_cases ht
  exact ⟨State.afterReset_setMem hlow hhigh, (hostReset_of_halted rfl).trans (congrArg _ s.afterReset_afterReset)⟩

/-- Settles O43. -/
theorem runAdmission : Obligations.RunAdmission :=
  ⟨fun _ _ => ⟨startRun_cases, fun ⟨hh, hc, ht⟩ => ht ▸ startRun_of_no_cause hh hc⟩,
    fun _ => startRun_of_cause, fun _ => startRun_of_running⟩

/-- Settles O45: an overflow is the bound failed; within the bound a byte is the vector's, the image's or the old
one. -/
theorem loadStoresImageThenVector : Obligations.LoadStoresImageThenVector := by
  refine ⟨fun img s hr => load_of_running hr img, fun img s hh => ⟨fun hover => ?_, fun hbound => ?_⟩⟩
  · exact load_of_not_wellFormed hh (mt (wellFormed_iff_bound img).mp (Nat.not_le.mpr hover))
  · refine ⟨_, load_of_wellFormed hh ((wellFormed_iff_bound img).mpr hbound), fun addr => ?_⟩
    rw [read8_loadedMemory, Memory.read8_copy_of_bound _ _ _ _ hbound]

/-- Settles O47: `load` left the loop Halted, and the vector it wrote last is the origin. -/
theorem loadThenResetStartsAtOrigin : Obligations.LoadThenResetStartsAtOrigin := by
  intro img s t h
  have hh : s.runState = .halted := (whenHalted_next.mp h).1
  obtain ⟨-, rfl, -⟩ | ⟨-, -, hstatus⟩ := load_cases h
  · rw [hostReset_of_halted (s := s.setMem (loadedMemory img s.mem)) hh, State.afterReset, State.setMem_mem,
      read16_loadedMemory_resetVector]
    rfl
  · nomatch hstatus

/-- Settles O48: after the load, `reset()` leaves the state the run is given from. -/
theorem loadAndRunComposes : Obligations.LoadAndRunComposes := by
  refine ⟨fun _ _ _ => rfl, fun origin fuel bytes s => loadAndRunAt_of_overflow fuel,
    fun origin fuel bytes s t u hload hrun => ?_⟩
  rw [loadAndRunAt_of_ok fuel hload]
  exact andThen_next.mpr ⟨u, andThen_next.mpr ⟨_, loadThenResetStartsAtOrigin _ s t hload, hrun⟩, rfl⟩

/-- Settles O40: the two bytes of the vector, high byte first, are its 16-bit read. -/
theorem resetResult : Obligations.ResetResult := fun _ => hostReset_of_halted

/-- Settles O42: memory lists nothing, so the vector reads 0x0000. -/
theorem powerOnResetIsResetState : Obligations.PowerOnResetIsResetState := by
  refine (hostReset_of_halted rfl).trans (congrArg _ ?_)
  rw [State.afterReset, State.construct_mem, Memory.ofFn_unlistedByte]
  rfl

/-- Settles O49. -/
theorem hostActsOnlyWhileHalted : Obligations.HostActsOnlyWhileHalted :=
  ⟨fun _ hr => ⟨hostOp_of_running hr, fun _ _ _ => andThen_of_refused (load_of_running hr _) _,
      fun _ => andThen_of_refused (startRun_of_running hr) _, whenHalted_of_running hr _,
      fun _ => whenHalted_of_running hr _⟩,
    fun _ hh => ⟨whenHalted_of_halted hh _, fun _ => whenHalted_of_halted hh _⟩⟩

/-- Settles O52. -/
theorem hostWriteStoresOneByte : Obligations.HostWriteStoresOneByte :=
  ⟨fun s a v hh => ⟨s.mem.write8 a v, whenHalted_of_halted hh _, fun b => Memory.read8_write8 s.mem a b v⟩,
    fun _ _ _ hr => whenHalted_of_running hr _⟩

end Sys2Proof.Machine
end
